-- ==== Sys2Proof/Word.lean ====
section
/-! DEFINITION. The widths and the register count the core takes (`00_scope.md` R6), and the word types they
fix. `delta%` puts the value of a named constant into a type, so the constant decides the type and the type
is the plain `BitVec 8` or `Fin 8`. -/

namespace Sys2Proof

/-- `XLEN`: the width of a register and of data (`00_scope.md` R6). -/
def Config.xlen : Nat := 8

/-- `CELL_BITS`: the width of a memory cell (`00_scope.md` R6). -/
def Config.cellBits : Nat := 8

/-- `PC_BITS`: the width of the program counter, all pc arithmetic modulo 256 (`00_scope.md` R6, D2; log 2). -/
def Config.pcBits : Nat := 8

/-- `NREGS`: the number of general registers (`00_scope.md` R6, `10_state.md` R20). -/
def Config.nregs : Nat := 8

/-- "Every register value, memory cell, operand byte and address is an unsigned integer in the range 0 to
255" (`00_scope.md` R8). Addition, subtraction and multiplication of bytes wrap modulo 256. -/
abbrev Byte := BitVec (delta% Config.xlen)

/-- What a memory cell holds (`10_state.md` R37). -/
abbrev CellByte := BitVec (delta% Config.cellBits)

/-- What the program counter holds (`10_state.md` R25). -/
abbrev PcWord := BitVec (delta% Config.pcBits)

/-- The index of a general register, 0 to 7 (`10_state.md` R20). -/
abbrev RegIdx := Fin (delta% Config.nregs)

end Sys2Proof
end

