-- ==== Sys2Proof/Config.lean ====
section
/-! DEFINITION. The parameters of the core that its data model fixes (`00_scope.md` R6), and the two open
values of the host's rendering of output.

R6's other parameters are named constants too. `XLEN`, `CELL_BITS`, `PC_BITS` and `NREGS` are `Config.xlen`,
`Config.cellBits`, `Config.pcBits` and `Config.nregs` in Word.lean, where they fix the word types. Those that
are the spec's decisions stand in the files a later repair may mend: `OPCODE_MAP` is `opcodeOf` in
Decode.lean; `FL_E_BIT`, `FL_L_BIT` and `FL_G_BIT` are `flEBit`, `flLBit` and `flGBit` in Machine/Flags.lean;
the error codes are `errNumber` in Machine/Ops.lean; `REG_OPERAND_POLICY` is `Config.regOperandPolicy` in
Machine/Operands.lean; `STUB_POLICY` is `Config.stubPolicy` in Machine/System.lean. The values the two policies
can take are below. -/

namespace Sys2Proof.Config

/-- The values of `REG_OPERAND_POLICY`, what a register operand byte that names no register does: the three
the source offers, "wrap (mask to the address width), clamp, or fail fast" (`30_encoding.md` R84). -/
inductive RegOperandPolicy where
  /-- The low bits of the byte name the register. -/
  | mask
  /-- The byte names the last register. -/
  | clamp
  /-- Fail fast: BadRegister. -/
  | fault
  deriving DecidableEq, Repr

/-- The values of `STUB_POLICY`, what INT and IRET do: the outcomes the source allows for a byte, but "a real
operation", of which it gives none (`43_data_io_system.md` R197). -/
inductive StubPolicy where
  /-- "a documented no-op". -/
  | noOp
  /-- "an 'unknown instruction' failure". -/
  | unknownInstruction
  deriving DecidableEq, Repr

/-- `SP_INDEX`: register 7 is the stack pointer (`00_scope.md` R6, `10_state.md` R21). -/
def spIndex : RegIdx := 7

/-- `SP_RESET` (`00_scope.md` R6, `10_state.md` R24). -/
def spReset : Byte := 0xF4

/-- `PC_RESET` (`00_scope.md` R6, `10_state.md` R25). -/
def pcReset : PcWord := 0x00

/-- `FL_RESET` (`00_scope.md` R6, `10_state.md` R29). -/
def flReset : Byte := 0x00

/-- `MEM_SIZE`: 256 cells, addresses 0 to 255 (`00_scope.md` R6, `20_memory.md` R50). -/
def memSize : Nat := 256

/-- What a cell holds at reset, hence what an address the memory list does not name reads as: "Reset value:
every cell 0" (`10_state.md` R37). -/
def memReset : CellByte := 0x00

/-- The byte or bytes the host writes for the line break of a PRN event. `OUT_RENDER` is left OPEN by the
spec (`43_data_io_system.md` R193, D15), so this is a free value: no body, nothing can be proved of it (log 14). -/
opaque lineBreakBytes : List Byte

/-- The bytes the host writes for the character of a code point 0 to 255: "the bytes it becomes on a byte
stream depend on the host's encoding" (`43_data_io_system.md` R194, D15). A free value (log 14). -/
opaque charBytes : Byte → List Byte

end Sys2Proof.Config
end

