-- ==== Sys2Proof/Syntax.lean ====
section
/-! DEFINITION. The instructions: one constructor per row of `spec/opcode_table.json`, in the order of
`30_encoding.md` R86. -/

namespace Sys2Proof

/-- An instruction as the step's dispatch sees it: the operation and its operand bytes AS FETCHED (R81).
`opA` and `opB` are raw bytes: whether a register operand byte names a register is for the instruction to
check when it runs (`reg()`, `30_encoding.md` R84), so an instruction with a byte above 7 is a term, is not
`wellFormed`, and raises BadRegister. -/
inductive Instr where
  | nop
  | hlt
  | ret
  | iret
  | push (opA : Byte)
  | pop (opA : Byte)
  | prn (opA : Byte)
  | pra (opA : Byte)
  | call (opA : Byte)
  /-- The operand byte is present and ignored (R197). -/
  | int (opA : Byte)
  | jmp (opA : Byte)
  | jeq (opA : Byte)
  | jne (opA : Byte)
  | jgt (opA : Byte)
  | jlt (opA : Byte)
  | inc (opA : Byte)
  | dec (opA : Byte)
  | not (opA : Byte)
  /-- Operand B is the immediate (R83). -/
  | ldi (opA : Byte) (imm : Byte)
  /-- Operand A is the destination, operand B the address register (R191). -/
  | ld (opA opB : Byte)
  /-- Operand A is the address register, operand B the value register (R192). -/
  | st (opA opB : Byte)
  | add (opA opB : Byte)
  | sub (opA opB : Byte)
  | mul (opA opB : Byte)
  | div (opA opB : Byte)
  | mod (opA opB : Byte)
  | cmp (opA opB : Byte)
  | and (opA opB : Byte)
  | or (opA opB : Byte)
  | xor (opA opB : Byte)
  | shl (opA opB : Byte)
  | shr (opA opB : Byte)
  deriving DecidableEq, Repr

end Sys2Proof
end

