-- ==== Sys2Proof/WellFormed.lean ====
section
/-! DEFINITION. Well-formed instructions: every operand byte the instruction uses as a register index names
one of the 8 registers. -/

namespace Sys2Proof

/-- The operand bytes an instruction uses as register indices, operand A first (`30_encoding.md` R81, R84).
LDI's immediate and INT's operand byte are not among them. -/
def Instr.regOperands : Instr → List Byte
  | .nop => []
  | .hlt => []
  | .ret => []
  | .iret => []
  | .push a => [a]
  | .pop a => [a]
  | .prn a => [a]
  | .pra a => [a]
  | .call a => [a]
  | .int _ => []
  | .jmp a => [a]
  | .jeq a => [a]
  | .jne a => [a]
  | .jgt a => [a]
  | .jlt a => [a]
  | .inc a => [a]
  | .dec a => [a]
  | .not a => [a]
  | .ldi a _ => [a]
  | .ld a b => [a, b]
  | .st a b => [a, b]
  | .add a b => [a, b]
  | .sub a b => [a, b]
  | .mul a b => [a, b]
  | .div a b => [a, b]
  | .mod a b => [a, b]
  | .cmp a b => [a, b]
  | .and a b => [a, b]
  | .or a b => [a, b]
  | .xor a b => [a, b]
  | .shl a b => [a, b]
  | .shr a b => [a, b]

/-- An operand byte names a register when it is 0 to 7 (`30_encoding.md` R84). -/
def isRegByte (b : Byte) : Bool := decide (b.toNat < (delta% Config.nregs))

/-- A well-formed instruction names only registers that exist. An instruction that is not raises
BadRegister when it runs (R213). -/
def Instr.wellFormed (i : Instr) : Bool := i.regOperands.all isRegByte

end Sys2Proof
end

