-- ==== Sys2Proof/Decode.lean ====
section
/-! DEFINITION. The decoder and the encoder, written from the opcode map of `30_encoding.md` R86 and the
formats of R81. -/

namespace Sys2Proof

/-- The mnemonics of the closed instruction set (`00_scope.md` R3), in the order of R86. -/
inductive Mnemonic where
  | nop
  | hlt
  | ret
  | iret
  | push
  | pop
  | prn
  | pra
  | call
  | int
  | jmp
  | jeq
  | jne
  | jgt
  | jlt
  | inc
  | dec
  | not
  | ldi
  | ld
  | st
  | add
  | sub
  | mul
  | div
  | mod
  | cmp
  | and
  | or
  | xor
  | shl
  | shr
  deriving DecidableEq, Repr

/-- The four formats of `30_encoding.md` R81. -/
inductive Format where
  /-- The opcode byte alone. -/
  | f0
  /-- One operand byte, a register index (for INT, a byte that is ignored). -/
  | f1r
  /-- Two operand bytes, both register indices. -/
  | f2rr
  /-- Two operand bytes, a register index and an immediate. -/
  | f2ri
  deriving DecidableEq, Repr

/-- Why the decoder gives no instruction. -/
inductive DecodeError where
  /-- The opcode byte is none of the 32 of R86 (`30_encoding.md` R88). -/
  | unknownInstruction (ir : Byte)
  /-- The list of bytes ends before the instruction does. A step's fetch always reads three bytes
  (`40_step_cycle.md` R118), so it never meets this (log 16). -/
  | truncated
  deriving DecidableEq, Repr

/-- `OPCODE_MAP`: the opcode byte of each mnemonic (`30_encoding.md` R86). UNVERIFIED: the spec supplies
these values from general knowledge of the LS-8 convention, decision D1 (log 1). -/
def opcodeOf : Mnemonic → Byte
  | .nop => 0x00
  | .hlt => 0x01
  | .ret => 0x11
  | .iret => 0x13
  | .push => 0x45
  | .pop => 0x46
  | .prn => 0x47
  | .pra => 0x48
  | .call => 0x50
  | .int => 0x52
  | .jmp => 0x54
  | .jeq => 0x55
  | .jne => 0x56
  | .jgt => 0x57
  | .jlt => 0x58
  | .inc => 0x65
  | .dec => 0x66
  | .not => 0x69
  | .ldi => 0x82
  | .ld => 0x83
  | .st => 0x84
  | .add => 0xA0
  | .sub => 0xA1
  | .mul => 0xA2
  | .div => 0xA3
  | .mod => 0xA4
  | .cmp => 0xA7
  | .and => 0xA8
  | .or => 0xAA
  | .xor => 0xAB
  | .shl => 0xAC
  | .shr => 0xAD

/-- The format of each mnemonic (`30_encoding.md` R81, R86). -/
def formatOf : Mnemonic → Format
  | .nop => .f0
  | .hlt => .f0
  | .ret => .f0
  | .iret => .f0
  | .push => .f1r
  | .pop => .f1r
  | .prn => .f1r
  | .pra => .f1r
  | .call => .f1r
  | .int => .f1r
  | .jmp => .f1r
  | .jeq => .f1r
  | .jne => .f1r
  | .jgt => .f1r
  | .jlt => .f1r
  | .inc => .f1r
  | .dec => .f1r
  | .not => .f1r
  | .ldi => .f2ri
  | .ld => .f2rr
  | .st => .f2rr
  | .add => .f2rr
  | .sub => .f2rr
  | .mul => .f2rr
  | .div => .f2rr
  | .mod => .f2rr
  | .cmp => .f2rr
  | .and => .f2rr
  | .or => .f2rr
  | .xor => .f2rr
  | .shl => .f2rr
  | .shr => .f2rr

/-- The width of a format in bytes (`30_encoding.md` R81). -/
def Format.width : Format → Nat
  | .f0 => 1
  | .f1r => 2
  | .f2rr => 3
  | .f2ri => 3

/-- The width of an instruction, 1 to 3 bytes, by its mnemonic (`30_encoding.md` R80, R87). -/
def widthOf (m : Mnemonic) : Nat := (formatOf m).width

/-- All mnemonics, in the order of R86. -/
def allMnemonics : List Mnemonic :=
  [.nop, .hlt, .ret, .iret, .push, .pop, .prn, .pra] ++
  [.call, .int, .jmp, .jeq, .jne, .jgt, .jlt, .inc] ++
  [.dec, .not, .ldi, .ld, .st, .add, .sub, .mul] ++
  [.div, .mod, .cmp, .and, .or, .xor, .shl, .shr]

/-- The mnemonic an opcode byte selects, found by looking the byte up in the map: "The opcode byte alone
selects the operation" (`30_encoding.md` R80, R87). -/
def lookupOpcode (ir : Byte) : Option Mnemonic := allMnemonics.find? fun m => opcodeOf m == ir

/-- An instruction with no operand byte. -/
def noOperand (i : Instr) (rest : List Byte) : Except DecodeError (Instr × List Byte) := .ok (i, rest)

/-- An instruction whose one operand byte is next in the list. -/
def oneOperand (f : Byte → Instr) : List Byte → Except DecodeError (Instr × List Byte)
  | a :: rest => .ok (f a, rest)
  | [] => .error .truncated

/-- An instruction whose two operand bytes are next in the list, operand A first (`20_memory.md` R55). -/
def twoOperands (f : Byte → Byte → Instr) : List Byte → Except DecodeError (Instr × List Byte)
  | a :: b :: rest => .ok (f a b, rest)
  | _ => .error .truncated

/-- The instruction of a mnemonic, its operand bytes taken from the bytes after the opcode byte
(`30_encoding.md` R81). -/
def decodeOperands : Mnemonic → List Byte → Except DecodeError (Instr × List Byte)
  | .nop => noOperand .nop
  | .hlt => noOperand .hlt
  | .ret => noOperand .ret
  | .iret => noOperand .iret
  | .push => oneOperand .push
  | .pop => oneOperand .pop
  | .prn => oneOperand .prn
  | .pra => oneOperand .pra
  | .call => oneOperand .call
  | .int => oneOperand .int
  | .jmp => oneOperand .jmp
  | .jeq => oneOperand .jeq
  | .jne => oneOperand .jne
  | .jgt => oneOperand .jgt
  | .jlt => oneOperand .jlt
  | .inc => oneOperand .inc
  | .dec => oneOperand .dec
  | .not => oneOperand .not
  | .ldi => twoOperands .ldi
  | .ld => twoOperands .ld
  | .st => twoOperands .st
  | .add => twoOperands .add
  | .sub => twoOperands .sub
  | .mul => twoOperands .mul
  | .div => twoOperands .div
  | .mod => twoOperands .mod
  | .cmp => twoOperands .cmp
  | .and => twoOperands .and
  | .or => twoOperands .or
  | .xor => twoOperands .xor
  | .shl => twoOperands .shl
  | .shr => twoOperands .shr

/-- The decoder: the instruction at the head of the bytes and the bytes after it, which are no part of it
(`30_encoding.md` R80, R91). A byte the map does not hold is an unknown instruction (R88). -/
def decode : List Byte → Except DecodeError (Instr × List Byte)
  | [] => .error .truncated
  | ir :: rest =>
    match lookupOpcode ir with
    | none => .error (.unknownInstruction ir)
    | some m => decodeOperands m rest

/-- The mnemonic of an instruction. -/
def Instr.mnemonic : Instr → Mnemonic
  | .nop => .nop
  | .hlt => .hlt
  | .ret => .ret
  | .iret => .iret
  | .push _ => .push
  | .pop _ => .pop
  | .prn _ => .prn
  | .pra _ => .pra
  | .call _ => .call
  | .int _ => .int
  | .jmp _ => .jmp
  | .jeq _ => .jeq
  | .jne _ => .jne
  | .jgt _ => .jgt
  | .jlt _ => .jlt
  | .inc _ => .inc
  | .dec _ => .dec
  | .not _ => .not
  | .ldi _ _ => .ldi
  | .ld _ _ => .ld
  | .st _ _ => .st
  | .add _ _ => .add
  | .sub _ _ => .sub
  | .mul _ _ => .mul
  | .div _ _ => .div
  | .mod _ _ => .mod
  | .cmp _ _ => .cmp
  | .and _ _ => .and
  | .or _ _ => .or
  | .xor _ _ => .xor
  | .shl _ _ => .shl
  | .shr _ _ => .shr

/-- The operand bytes of an instruction, in memory order (`30_encoding.md` R81). -/
def Instr.operandBytes : Instr → List Byte
  | .nop => []
  | .hlt => []
  | .ret => []
  | .iret => []
  | .push a => [a]
  | .pop a => [a]
  | .prn a => [a]
  | .pra a => [a]
  | .call a => [a]
  | .int a => [a]
  | .jmp a => [a]
  | .jeq a => [a]
  | .jne a => [a]
  | .jgt a => [a]
  | .jlt a => [a]
  | .inc a => [a]
  | .dec a => [a]
  | .not a => [a]
  | .ldi a b => [a, b]
  | .ld a b => [a, b]
  | .st a b => [a, b]
  | .add a b => [a, b]
  | .sub a b => [a, b]
  | .mul a b => [a, b]
  | .div a b => [a, b]
  | .mod a b => [a, b]
  | .cmp a b => [a, b]
  | .and a b => [a, b]
  | .or a b => [a, b]
  | .xor a b => [a, b]
  | .shl a b => [a, b]
  | .shr a b => [a, b]

/-- The encoder: the opcode byte, then operand A, then operand B (`30_encoding.md` R80; "every mnemonic
assembles to exactly the bytes of its row followed by its operand bytes", R93). -/
def encode (i : Instr) : List Byte := opcodeOf i.mnemonic :: i.operandBytes

/-- The three bytes of a word as the opcode table numbers its bits (bit 0 the least significant bit of the
first byte), every bit from `nbits` up taken as 0: the bytes in the order they stand at rising addresses. -/
def tableWordBytes (nbits w : Nat) : List Byte :=
  let v := w % 2 ^ nbits
  [BitVec.ofNat 8 v, BitVec.ofNat 8 (v / 256), BitVec.ofNat 8 (v / 65536)]

/-- The instruction the decoder reads from a word of the opcode table. -/
def decodeTableWord (nbits w : Nat) : Option Instr :=
  match decode (tableWordBytes nbits w) with
  | .ok (i, _) => some i
  | .error _ => none

end Sys2Proof
end

