-- ==== Sys2Proof/Machine/State.lean ====
section
/-! DEFINITION. The complete state of the core (`10_state.md`) and its value after reset (R41). Plain data. -/

namespace Sys2Proof.Machine

/-- The register file: "There is one bank, no windows, no aliases between registers, and no register is
hardwired to a constant" (`10_state.md` R20). -/
structure RegFile where
  r0 : Byte
  r1 : Byte
  r2 : Byte
  r3 : Byte
  r4 : Byte
  r5 : Byte
  r6 : Byte
  /-- The stack pointer (`10_state.md` R21). -/
  r7 : Byte
  deriving DecidableEq, Repr

/-- The run state `STATUS` (`10_state.md` R33). -/
inductive RunStatus where
  | running
  | halted
  deriving DecidableEq, Repr

/-- The error latch `ERR` (`10_state.md` R34); its numeric codes are `errNumber` in Ops.lean. -/
inductive ErrCode where
  /-- Code 0: no error, also after a normal HLT. -/
  | noError
  /-- Code 1, raised by DIV and MOD (`60_exceptions.md` R211). -/
  | divideByZero
  /-- Code 2, raised by the dispatch (`60_exceptions.md` R212). -/
  | unknownInstruction
  /-- Code 3, raised by a register operand byte above 7 (`60_exceptions.md` R213). -/
  | badRegister
  deriving DecidableEq, Repr

/-- The kind of an output event (`00_scope.md` R9, `40_step_cycle.md` R115). -/
inductive OutKind where
  /-- From PRN. -/
  | int
  /-- From PRA. -/
  | char
  deriving DecidableEq, Repr

/-- One event of the output side-channel (`10_state.md` R39). -/
structure OutEvent where
  kind : OutKind
  value : Byte
  deriving DecidableEq, Repr

/-- The 256 cells (`10_state.md` R37) as the list of those that do not hold `Config.memReset`, by rising
address. The form is `Memory.wf` in Ops.lean. -/
abbrev Memory := List Host.Cell

/-- The complete state of the core: "Nothing else persists from one step to the next" (`10_state.md`). -/
structure State where
  /-- `x[0..7]` (R20). -/
  regs : RegFile
  /-- The program counter (R25). -/
  pc : PcWord
  /-- The flags register `FL` (R29). -/
  fl : Byte
  /-- The run state `STATUS` (R33). -/
  status : RunStatus
  /-- The error latch `ERR` (R34). -/
  err : ErrCode
  /-- `ERR_PC` (R35). -/
  errPc : PcWord
  /-- `ERR_IR` (R35). -/
  errIr : Byte
  /-- `ERR_OPA` (R35). -/
  errOpA : Byte
  /-- `ERR_OPB` (R35). -/
  errOpB : Byte
  /-- `mem[0..255]` (R37); the stack has "no separate storage" (R38). -/
  mem : Memory
  /-- `OUT`, oldest event first (R39). -/
  out : List OutEvent
  deriving DecidableEq, Repr

/-- The reasons a step could have no next state: there are none. The machine's one kind of exception, the
fatal error, is a NEXT state (`raise` in Ops.lean, `60_exceptions.md` R214), and no address, alignment,
privilege or stack condition is an error (`60_exceptions.md` R219). Nothing raises a `Fault`. -/
inductive Fault : Type
  deriving DecidableEq, Repr

/-- The reasons an instruction could have no meaning. -/
inductive Refusal where
  /-- Raised by an arm of `exec` whose instruction is not modelled yet; safe. No arm raises it now. -/
  | notModelled (mnemonic : String)
  deriving DecidableEq, Repr

/-- What a meaning answers. -/
abbrev Result := Host.Outcome State Fault Refusal

/-- The state after reset (`10_state.md` R41, `70_reset_and_hazards.md` R240). Every value is the spec's. -/
def State.reset : State where
  regs := { r0 := 0, r1 := 0, r2 := 0, r3 := 0, r4 := 0, r5 := 0, r6 := 0, r7 := Config.spReset }
  pc := Config.pcReset
  fl := Config.flReset
  status := .running
  err := .noError
  errPc := 0
  errIr := 0
  errOpA := 0
  errOpB := 0
  mem := []
  out := []

end Sys2Proof.Machine
end

