-- ==== Sys2Proof/Machine/Ops.lean ====
section
/-! DEFINITION. The named operations over registers, memory, the stack pointer, the program counter and the
output, the fetch, and raising a fatal error. -/

namespace Sys2Proof.Machine

/-! ### General registers -/

/-- Read of register `i` (`00_scope.md` R9, `10_state.md` R20). -/
def RegFile.get (r : RegFile) (i : RegIdx) : Byte :=
  match i.val with
  | 0 => r.r0
  | 1 => r.r1
  | 2 => r.r2
  | 3 => r.r3
  | 4 => r.r4
  | 5 => r.r5
  | 6 => r.r6
  | _ => r.r7

/-- Write of register `i` (`00_scope.md` R9, `10_state.md` R20). -/
def RegFile.set (r : RegFile) (i : RegIdx) (v : Byte) : RegFile :=
  match i.val with
  | 0 => { r with r0 := v }
  | 1 => { r with r1 := v }
  | 2 => { r with r2 := v }
  | 3 => { r with r3 := v }
  | 4 => { r with r4 := v }
  | 5 => { r with r5 := v }
  | 6 => { r with r6 := v }
  | _ => { r with r7 := v }

/-- `x[i]`. -/
def State.reg (s : State) (i : RegIdx) : Byte := s.regs.get i

/-- `x[i] <- v`. -/
def State.setReg (s : State) (i : RegIdx) (v : Byte) : State := { s with regs := s.regs.set i v }

/-- `SP`, the alias of `x[7]` (`00_scope.md` R9). -/
def State.sp (s : State) : Byte := s.reg Config.spIndex

/-- The stack-pointer decrement, 0x00 becoming 0xFF (`20_memory.md` R53). -/
def State.decSp (s : State) : State := s.setReg Config.spIndex (s.sp - 1)

/-- The stack-pointer increment, 0xFF becoming 0x00 (`20_memory.md` R53). -/
def State.incSp (s : State) : State := s.setReg Config.spIndex (s.sp + 1)

/-! ### Memory -/

/-- The byte at an address; an address the list does not name reads as the reset contents (`20_memory.md` R51). -/
def Memory.read : Memory → Nat → CellByte
  | [], _ => Config.memReset
  | (b, w) :: m, a => if a = b then w else Memory.read m a

/-- A cell in front of a memory of higher addresses, left out where it holds what an unlisted address reads as. -/
def Memory.cons (a : Nat) (v : CellByte) (m : Memory) : Memory :=
  if v = Config.memReset then m else (a, v) :: m

/-- The memory after a byte is written, in canonical form (`20_memory.md` R52). -/
def Memory.write : Memory → Nat → CellByte → Memory
  | [], a, v => Memory.cons a v []
  | (b, w) :: m, a, v =>
    if a < b then Memory.cons a v ((b, w) :: m)
    else if a = b then Memory.cons a v m
    else (b, w) :: Memory.write m a v

/-- Canonical form from address `lo` up: addresses rise strictly, stay inside the address space, and no
entry holds what an unlisted address reads as. -/
def Memory.wfFrom : Nat → Memory → Bool
  | _, [] => true
  | lo, (a, v) :: m =>
    decide (lo ≤ a) && decide (a < Config.memSize) && decide (v ≠ Config.memReset) && Memory.wfFrom (a + 1) m

/-- Canonical form: equal memories are equal lists. -/
def Memory.wf (m : Memory) : Bool := Memory.wfFrom 0 m

/-- `MemRead(a, 1)` (`20_memory.md` R51). -/
def State.memRead (s : State) (a : Byte) : Byte := s.mem.read a.toNat

/-- `MemWrite(a, 1, v)` (`20_memory.md` R52). -/
def State.memWrite (s : State) (a v : Byte) : State := { s with mem := s.mem.write a.toNat v }

/-! ### Program counter, output and run state -/

/-- `pc <- t`. -/
def State.setPc (s : State) (t : PcWord) : State := { s with pc := t }

/-- `pc <- (pc + width) mod 256`, the width that of the mnemonic (`40_step_cycle.md` R120). -/
def State.advance (s : State) (m : Mnemonic) : State := s.setPc (s.pc + BitVec.ofNat (delta% Config.pcBits) (widthOf m))

/-- `Out(k, v)`: the event joins the end of `OUT` (`40_step_cycle.md` R115). -/
def State.emit (s : State) (k : OutKind) (v : Byte) : State :=
  { s with out := s.out ++ [{ kind := k, value := v }] }

/-- `STATUS <- HALTED`, a normal stop: ERR is left alone (`10_state.md` R33, `43_data_io_system.md` R196). -/
def State.halt (s : State) : State := { s with status := .halted }

/-! ### Fetch -/

/-- `ir <- MemRead(pc, 1)` (`40_step_cycle.md` R118). -/
def State.fetchIr (s : State) : Byte := s.memRead s.pc

/-- `opA <- MemRead((pc + 1) mod 256, 1)` (`40_step_cycle.md` R118). -/
def State.fetchA (s : State) : Byte := s.memRead (s.pc + 1)

/-- `opB <- MemRead((pc + 2) mod 256, 1)` (`40_step_cycle.md` R118). -/
def State.fetchB (s : State) : Byte := s.memRead (s.pc + 2)

/-- The three bytes every step reads before it changes any state (`40_step_cycle.md` R118). -/
def State.fetchBytes (s : State) : List Byte := [s.fetchIr, s.fetchA, s.fetchB]

/-- Fetch and decode: the instruction at the program counter, or why there is none (`40_step_cycle.md` R119). -/
def State.fetchDecode (s : State) : Except DecodeError Instr :=
  match decode s.fetchBytes with
  | .ok (i, _) => .ok i
  | .error e => .error e

/-! ### Fatal errors -/

/-- The numeric code of an error (`10_state.md` R34, decision D7; log 5). -/
def errNumber : ErrCode → Nat
  | .noError => 0
  | .divideByZero => 1
  | .unknownInstruction => 2
  | .badRegister => 3

/-- Raising a fatal error, the machine's only exception: `raise E(pc, ir, opA, opB)` of `60_exceptions.md`
R214. The pc is not advanced and nothing else changes. There is no return from it (R217): IRET is a no-op
stub (`43_data_io_system.md` R198) and only reset leaves HALTED. -/
def raise (e : ErrCode) (ir opA opB : Byte) (s : State) : State :=
  { s with
    status := .halted
    err := e
    errPc := s.pc
    errIr := ir
    errOpA := opA
    errOpB := opB }

/-- What the dispatch does with a byte the opcode map does not hold (`60_exceptions.md` R212). -/
def raiseUnknown (s : State) : State := raise .unknownInstruction s.fetchIr s.fetchA s.fetchB s

/-! ### The placing of bytes by the host -/

/-- `load_byte_at(addr, value)`: the address is reduced modulo 256 (`40_step_cycle.md` R112). -/
def State.loadByteAt (s : State) (addr : Nat) (v : Byte) : State :=
  { s with mem := s.mem.write (addr % Config.memSize) v }

/-- The three bytes of an opcode-table word at the program counter of a running machine. It stands for
the host's load of a program (log 13), not for an operation of the core. -/
def State.placeWord (s : State) (nbits w : Nat) : State :=
  match tableWordBytes nbits w with
  | [ir, opA, opB] =>
    { (((s.memWrite s.pc ir).memWrite (s.pc + 1) opA).memWrite (s.pc + 2) opB) with status := .running }
  | _ => s

end Sys2Proof.Machine
end

