-- ==== Sys2Proof/Machine/Flags.lean ====
section
/-! DEFINITION. The flags register: its bit positions, its three condition bits, and the byte CMP writes. -/

namespace Sys2Proof.Machine

/-- `FL_E_BIT` (`10_state.md` R29, D18; log 7). -/
def flEBit : Nat := 0

/-- `FL_L_BIT` (`10_state.md` R29, D18; log 7). -/
def flLBit : Nat := 1

/-- `FL_G_BIT` (`10_state.md` R29, D18; log 7). -/
def flGBit : Nat := 2

/-- `FL.E`: the last CMP found its operands equal. -/
def State.flagE (s : State) : Bool := s.fl.getLsbD flEBit

/-- `FL.L`: the last CMP found the left operand less, as unsigned bytes. -/
def State.flagL (s : State) : Bool := s.fl.getLsbD flLBit

/-- `FL.G`: the last CMP found the left operand greater, as unsigned bytes. -/
def State.flagG (s : State) : Bool := s.fl.getLsbD flGBit

/-- The byte with one bit of it given and the others 0. -/
def bitAt (n : Nat) (b : Bool) : Byte := if b then 1 <<< n else 0

/-- The byte `FL` of three conditions, its other bits 0 (`10_state.md` R31). -/
def packFlags (e l g : Bool) : Byte := bitAt flEBit e ||| bitAt flLBit l ||| bitAt flGBit g

/-- The flags CMP computes of two bytes, compared as unsigned numbers (`41_alu.md` R154). -/
def cmpFlags (u v : Byte) : Byte := packFlags (u == v) (u.ult v) (v.ult u)

/-- `FL <- f`. -/
def State.setFl (s : State) (f : Byte) : State := { s with fl := f }

end Sys2Proof.Machine
end

