-- ==== Sys2Proof/Machine/Operands.lean ====
section
/-! DEFINITION. Operand decode: an operand byte as a register index, and the BadRegister checks every
instruction with a register operand makes before it changes any state. The other operand form, LDI's
immediate, is the byte itself (`30_encoding.md` R83); there is no third (R82). -/

namespace Sys2Proof.Config

/-- `REG_OPERAND_POLICY`: an operand byte that names no register faults (`00_scope.md` R6, decision D4; log 3). -/
def regOperandPolicy : RegOperandPolicy := .fault

end Sys2Proof.Config

namespace Sys2Proof.Machine

/-- `reg(b)`: the register an operand byte names, when it is 0 to 7 (`30_encoding.md` R84). The whole byte
is the index; a byte above 7 names what `REG_OPERAND_POLICY` says, for this hardware none (D4, log 3). -/
def reg? (b : Byte) : Option RegIdx :=
  if h : b.toNat < (delta% Config.nregs) then some ⟨b.toNat, h⟩
  else
    match Config.regOperandPolicy with
    | .mask => some ⟨b.toNat % (delta% Config.nregs), Nat.mod_lt _ (by decide)⟩
    | .clamp => some ⟨(delta% Config.nregs) - 1, by decide⟩
    | .fault => none

/-- `raise BadRegister(pc, ir, opA, opB)` (`60_exceptions.md` R213). The bytes recorded are the instruction's
own encoding, which in a step are the bytes fetched (log 15). -/
def badRegister (m : Mnemonic) (opA opB : Byte) (s : State) : Result :=
  .next (raise .badRegister (opcodeOf m) opA opB s)

/-- `a <- reg(opA)`, then the rest of the instruction. `opB` is operand B as fetched, which the error
latches record even where the instruction does not use it. -/
def withReg (m : Mnemonic) (opA opB : Byte) (s : State) (k : RegIdx → Result) : Result :=
  match reg? opA with
  | none => badRegister m opA opB s
  | some a => k a

/-- `a <- reg(opA); b <- reg(opB)`, operand A checked first (`30_encoding.md` R84, `60_exceptions.md` R216),
then the rest of the instruction. -/
def withRegs (m : Mnemonic) (opA opB : Byte) (s : State) (k : RegIdx → RegIdx → Result) : Result :=
  withReg m opA opB s fun a =>
    match reg? opB with
    | none => badRegister m opA opB s
    | some b => k a b

end Sys2Proof.Machine
end

