-- ==== Sys2Proof/Machine/Alu.lean ====
section
/-! DEFINITION. The arithmetic and logic instructions (`41_alu.md`). -/

namespace Sys2Proof.Machine

/-- The shape of every two-operand ALU instruction with a result: both sources are read, the result goes to
`x[a]`, the pc advances, no flag is written (`41_alu.md` R140). -/
def aluTwo (m : Mnemonic) (f : Byte → Byte → Byte) (opA opB : Byte) (s : State) : Result :=
  withRegs m opA opB s fun a b => .next ((s.setReg a (f (s.reg a) (s.reg b))).advance m)

/-- The shape of every one-operand ALU instruction (`41_alu.md` R140). -/
def aluOne (m : Mnemonic) (f : Byte → Byte) (opA : Byte) (s : State) : Result :=
  withReg m opA s.fetchB s fun a => .next ((s.setReg a (f (s.reg a))).advance m)

/-- The shape of DIV and MOD: after the register checks, a zero divisor raises DivideByZero with nothing
written (`41_alu.md` R144, R145; `60_exceptions.md` R211, R216). -/
def aluDivide (m : Mnemonic) (f : Byte → Byte → Byte) (opA opB : Byte) (s : State) : Result :=
  withRegs m opA opB s fun a b =>
    if s.reg b = 0 then .next (raise .divideByZero (opcodeOf m) opA opB s)
    else .next ((s.setReg a (f (s.reg a) (s.reg b))).advance m)

/-- ADD (`41_alu.md` R141): wraps modulo 256. -/
def execAdd (opA opB : Byte) (s : State) : Result := aluTwo .add (fun u v => u + v) opA opB s

/-- SUB (`41_alu.md` R142): wraps modulo 256. -/
def execSub (opA opB : Byte) (s : State) : Result := aluTwo .sub (fun u v => u - v) opA opB s

/-- MUL (`41_alu.md` R143): the low 8 bits of the product. -/
def execMul (opA opB : Byte) (s : State) : Result := aluTwo .mul (fun u v => u * v) opA opB s

/-- DIV (`41_alu.md` R144): the unsigned floor quotient (D10, log 8). -/
def execDiv (opA opB : Byte) (s : State) : Result := aluDivide .div (fun u v => u / v) opA opB s

/-- MOD (`41_alu.md` R145): the unsigned remainder (D10, log 8). -/
def execMod (opA opB : Byte) (s : State) : Result := aluDivide .mod (fun u v => u % v) opA opB s

/-- INC (`41_alu.md` R146). -/
def execInc (opA : Byte) (s : State) : Result := aluOne .inc (fun u => u + 1) opA s

/-- DEC (`41_alu.md` R147). -/
def execDec (opA : Byte) (s : State) : Result := aluOne .dec (fun u => u - 1) opA s

/-- AND (`41_alu.md` R148), into operand A's register (D11, log 8). -/
def execAnd (opA opB : Byte) (s : State) : Result := aluTwo .and (fun u v => u &&& v) opA opB s

/-- OR (`41_alu.md` R149), into operand A's register (D11, log 8). -/
def execOr (opA opB : Byte) (s : State) : Result := aluTwo .or (fun u v => u ||| v) opA opB s

/-- XOR (`41_alu.md` R150), into operand A's register (D11, log 8). -/
def execXor (opA opB : Byte) (s : State) : Result := aluTwo .xor (fun u v => u ^^^ v) opA opB s

/-- NOT (`41_alu.md` R151): the complement over 8 bits. -/
def execNot (opA : Byte) (s : State) : Result := aluOne .not (fun u => ~~~u) opA s

/-- SHL (`41_alu.md` R152): the count is the whole byte, so 8 or more gives 0 (D12, log 8). -/
def execShl (opA opB : Byte) (s : State) : Result := aluTwo .shl (fun u v => u <<< v.toNat) opA opB s

/-- SHR (`41_alu.md` R153): logical; the count is the whole byte (D12, log 8). -/
def execShr (opA opB : Byte) (s : State) : Result := aluTwo .shr (fun u v => u >>> v.toNat) opA opB s

/-- CMP (`41_alu.md` R154): writes the three flags and no register. -/
def execCmp (opA opB : Byte) (s : State) : Result :=
  withRegs .cmp opA opB s fun a b => .next ((s.setFl (cmpFlags (s.reg a) (s.reg b))).advance .cmp)

end Sys2Proof.Machine
end

