-- ==== Sys2Proof/Machine/Control.lean ====
section
/-! DEFINITION. Control transfer and stack instructions (`42_control_stack.md`). -/

namespace Sys2Proof.Machine

/-- A jump to the address in operand A's register when a condition holds, else the next instruction. The
operand is checked whether or not the jump is taken (`42_control_stack.md` R172, D14; log 10). -/
def jumpIf (m : Mnemonic) (taken : Bool) (opA : Byte) (s : State) : Result :=
  withReg m opA s.fetchB s fun a => .next (if taken then s.setPc (s.reg a) else s.advance m)

/-- JMP (`42_control_stack.md` R171). -/
def execJmp (opA : Byte) (s : State) : Result := jumpIf .jmp true opA s

/-- JEQ (`42_control_stack.md` R172): taken when E is 1. -/
def execJeq (opA : Byte) (s : State) : Result := jumpIf .jeq s.flagE opA s

/-- JNE (`42_control_stack.md` R173): taken when E is 0. -/
def execJne (opA : Byte) (s : State) : Result := jumpIf .jne (!s.flagE) opA s

/-- JLT (`42_control_stack.md` R174): taken when L is 1. -/
def execJlt (opA : Byte) (s : State) : Result := jumpIf .jlt s.flagL opA s

/-- JGT (`42_control_stack.md` R175): taken when G is 1. -/
def execJgt (opA : Byte) (s : State) : Result := jumpIf .jgt s.flagG opA s

/-- A byte computed of the state after the decrement is pushed: decrement, then store at the new stack
pointer (`42_control_stack.md` R180). -/
def State.pushWith (s : State) (v : State → Byte) : State := s.decSp.memWrite s.decSp.sp (v s.decSp)

/-- CALL (`42_control_stack.md` R176): the return address is `pc + 2`; the target is read after the push,
which differs only for CALL R7 (R181, D13; log 9). -/
def execCall (opA : Byte) (s : State) : Result :=
  withReg .call opA s.fetchB s fun a =>
    let t := s.pushWith fun _ => s.pc + 2
    .next (t.setPc (t.reg a))

/-- RET (`42_control_stack.md` R177): the byte at the stack pointer becomes the pc. -/
def execRet (s : State) : Result := .next (s.incSp.setPc (s.memRead s.sp))

/-- PUSH (`42_control_stack.md` R178): the register is read after the decrement, which differs only for
PUSH R7 (R181, D13; log 9). -/
def execPush (opA : Byte) (s : State) : Result :=
  withReg .push opA s.fetchB s fun a => .next ((s.pushWith fun t => t.reg a).advance .push)

/-- POP (`42_control_stack.md` R179): the load, then the increment, also when the destination is register 7
(R181, D13; log 9). -/
def execPop (opA : Byte) (s : State) : Result :=
  withReg .pop opA s.fetchB s fun a => .next (((s.setReg a (s.memRead s.sp)).incSp).advance .pop)

end Sys2Proof.Machine
end

