-- ==== Sys2Proof/Machine/Data.lean ====
section
/-! DEFINITION. Data movement instructions (`43_data_io_system.md` section 1). -/

namespace Sys2Proof.Machine

/-- LDI (`43_data_io_system.md` R190): operand B is the value, used as is and never checked. -/
def execLdi (opA imm : Byte) (s : State) : Result :=
  withReg .ldi opA imm s fun a => .next ((s.setReg a imm).advance .ldi)

/-- LD (`43_data_io_system.md` R191): operand A the destination, operand B the address register. -/
def execLd (opA opB : Byte) (s : State) : Result :=
  withRegs .ld opA opB s fun a b => .next ((s.setReg a (s.memRead (s.reg b))).advance .ld)

/-- ST (`43_data_io_system.md` R192): operand A the address register, operand B the value register. -/
def execSt (opA opB : Byte) (s : State) : Result :=
  withRegs .st opA opB s fun a b => .next ((s.memWrite (s.reg a) (s.reg b)).advance .st)

end Sys2Proof.Machine
end

