-- ==== Sys2Proof/Machine/Output.lean ====
section
/-! DEFINITION. The output instructions (`43_data_io_system.md` section 2) and what the spec fixes of how
the side-channel renders their events. -/

namespace Sys2Proof.Machine

/-- PRN (`43_data_io_system.md` R193): the event `(INT, x[a])`. -/
def execPrn (opA : Byte) (s : State) : Result :=
  withReg .prn opA s.fetchB s fun a => .next ((s.emit .int (s.reg a)).advance .prn)

/-- PRA (`43_data_io_system.md` R194): the event `(CHAR, x[a])`. -/
def execPra (opA : Byte) (s : State) : Result :=
  withReg .pra opA s.fetchB s fun a => .next ((s.emit .char (s.reg a)).advance .pra)

/-- What the channel shows, before the host's choice of bytes (`OUT_RENDER`, D15; log 14). -/
inductive Glyph where
  /-- The character with this code point. -/
  | char (codePoint : Byte)
  | lineBreak
  deriving DecidableEq, Repr

/-- The decimal digits of a number below 1000, most significant first, no leading zeros. -/
def decimalDigits (n : Nat) : List Nat :=
  if n < 10 then [n] else if n < 100 then [n / 10, n % 10] else [n / 100, n / 10 % 10, n % 10]

/-- The character of a decimal digit. -/
def digitGlyph (d : Nat) : Glyph := .char (BitVec.ofNat 8 (0x30 + d))

/-- The rendering of one event: PRN's value in unsigned decimal followed by a line break, PRA's character
alone (`40_step_cycle.md` R115, `43_data_io_system.md` R193, R194). -/
def renderEvent (e : OutEvent) : List Glyph :=
  match e.kind with
  | .int => (decimalDigits e.value.toNat).map digitGlyph ++ [.lineBreak]
  | .char => [.char e.value]

/-- The bytes the host writes for a glyph: the open parameter `OUT_RENDER` (D15; log 14). -/
def glyphBytes : Glyph → List Byte
  | .char c => Config.charBytes c
  | .lineBreak => Config.lineBreakBytes

/-- The bytes the host has written for the events so far, in program order (`40_step_cycle.md` R115). -/
def State.outBytes (s : State) : List Byte := (s.out.flatMap renderEvent).flatMap glyphBytes

end Sys2Proof.Machine
end

