-- ==== Sys2Proof/Machine/System.lean ====
section
/-! DEFINITION. The system instructions (`43_data_io_system.md` section 3). -/

namespace Sys2Proof.Config

/-- `STUB_POLICY`: INT and IRET are no-ops of width 2 and 1 (`00_scope.md` R6, decision D5; log 4). -/
def stubPolicy : StubPolicy := .noOp

end Sys2Proof.Config

namespace Sys2Proof.Machine

/-- A stub does what `STUB_POLICY` says, for this hardware nothing but advance (`43_data_io_system.md` R197,
R198; D5, log 4). -/
def stub (m : Mnemonic) (opA opB : Byte) (s : State) : Result :=
  match Config.stubPolicy with
  | .noOp => .next (s.advance m)
  | .unknownInstruction => .next (raise .unknownInstruction (opcodeOf m) opA opB s)

/-- NOP (`43_data_io_system.md` R195). -/
def execNop (s : State) : Result := .next (s.advance .nop)

/-- HLT (`43_data_io_system.md` R196): the pc passes the HLT and ERR is left alone. -/
def execHlt (s : State) : Result := .next (s.halt.advance .hlt)

/-- INT (`43_data_io_system.md` R197): a documented no-op of width 2; the operand byte is not checked (D5, log 4). -/
def execInt (opA : Byte) (s : State) : Result := stub .int opA s.fetchB s

/-- IRET (`43_data_io_system.md` R198): a documented no-op of width 1 (D5, log 4). -/
def execIret (s : State) : Result := stub .iret s.fetchA s.fetchB s

end Sys2Proof.Machine
end

