-- ==== Sys2Proof/Machine/Step.lean ====
section
/-! DEFINITION. The step (`40_step_cycle.md` R123), and the placing of one instruction for the next step. -/

namespace Sys2Proof.Machine

/-- `step()`: nothing in HALTED (R122); otherwise fetch, decode, and the instruction's rule, or
UnknownInstruction where the opcode map does not hold the byte (R119). The fetch gives three bytes, so the
decoder's only error here is the unknown byte. -/
def step (s : State) : Host.Outcome State Fault Refusal :=
  match s.status with
  | .halted => .next s
  | .running =>
    match s.fetchDecode with
    | .ok i => exec i s
    | .error _ => .next (raiseUnknown s)

/-- The state whose very next step runs the instruction of an opcode-table word: its bytes stand at the pc
and the machine is running. It stands for the host's load of a program (log 13). -/
def State.withFetchWord (s : State) (nbits w : Nat) : State := s.placeWord nbits w

end Sys2Proof.Machine
end

