-- ==== Sys2Proof/Machine/HostPort.lean ====
section
/-! DEFINITION. What the host does to the core between steps (`40_step_cycle.md` R110 to R117, R124): it
loads a program after reset, steps or runs, and observes. `State.loadByteAt` is in Ops.lean. -/

namespace Sys2Proof.Machine

/-- Byte `k` of an image is loaded at address `addr + k`. -/
def State.loadFrom (s : State) (addr : Nat) : List Byte → State
  | [] => s
  | b :: image => (s.loadByteAt addr b).loadFrom (addr + 1) image

/-- "placed at consecutive memory addresses starting at 0, in order" (`40_step_cycle.md` R112). -/
def State.loadImage (s : State) (image : List Byte) : State := s.loadFrom 0 image

/-- The state in which a program begins: reset, then the load of its image (`70_reset_and_hazards.md` R242).
The host makes no other write (`40_step_cycle.md` R124; log 13). -/
def bootState (image : List Byte) : State := State.reset.loadImage image

/-- `run()`, for at most `n` steps: `step()` while `STATUS = RUNNING` (`40_step_cycle.md` R114). The core has
no bound of its own, so the bound is the driver's (`70_reset_and_hazards.md` R248; log 17). -/
def runFor : Nat → State → Result
  | 0, s => .next s
  | n + 1, s =>
    match s.status with
    | .halted => .next s
    | .running =>
      match step s with
      | .next t => runFor n t
      | .fault r => .fault r
      | .refused r => .refused r

/-- What an external tracer and the host read between steps (`40_step_cycle.md` R116, R117). -/
structure Observation where
  pc : PcWord
  /-- "the next three memory bytes from the program counter". -/
  nextBytes : List Byte
  /-- `x[0]` to `x[7]`. -/
  regs : List Byte
  fl : Byte
  status : RunStatus
  /-- `ERR` as its code. -/
  err : Nat
  errPc : PcWord
  errIr : Byte
  errOpA : Byte
  errOpB : Byte
  deriving DecidableEq, Repr

/-- The observation of a state; it changes nothing. Any memory cell is read by `State.memRead`. -/
def State.observe (s : State) : Observation where
  pc := s.pc
  nextBytes := s.fetchBytes
  regs := (List.finRange (delta% Config.nregs)).map s.reg
  fl := s.fl
  status := s.status
  err := errNumber s.err
  errPc := s.errPc
  errIr := s.errIr
  errOpA := s.errOpA
  errOpB := s.errOpB

end Sys2Proof.Machine
end

