-- ==== Sys2Proof/Safety.lean ====
section
/-! DEFINITION. The terms in which claims are stated: frames, what one instruction does, what raising a fatal
error leaves, the invariant of the machine, and what an instruction may write. -/

namespace Sys2Proof.Machine

/-! ### Frames -/

/-- The operand byte that names a register; by `30_encoding.md` R84 these are the valid ones. -/
def regByte (r : RegIdx) : Byte := BitVec.ofNat 8 r.val

/-- Every register outside the list is unchanged. -/
def SameRegsBut (ds : List RegIdx) (s t : State) : Prop := ∀ r, r ∉ ds → t.reg r = s.reg r

/-- Every byte of memory is unchanged. -/
def SameMemory (s t : State) : Prop := ∀ a : Byte, t.memRead a = s.memRead a

/-- Every byte of memory but the one at `addr` is unchanged. -/
def SameMemoryBut (addr : Byte) (s t : State) : Prop := ∀ a : Byte, a ≠ addr → t.memRead a = s.memRead a

/-- The error latch and its information latches are unchanged. -/
def SameErrors (s t : State) : Prop :=
  t.err = s.err ∧ t.errPc = s.errPc ∧ t.errIr = s.errIr ∧ t.errOpA = s.errOpA ∧ t.errOpB = s.errOpB

/-- The run state and the error latches are unchanged. -/
def SameRunState (s t : State) : Prop := t.status = s.status ∧ SameErrors s t

/-- The flags, the run state, the error latches and the output are unchanged. -/
def SameControl (s t : State) : Prop := t.fl = s.fl ∧ SameRunState s t ∧ t.out = s.out

/-- `pc <- (pc + width) mod 256` (`40_step_cycle.md` R120). -/
def PcAdvances (width : Nat) (s t : State) : Prop := t.pc.toNat = (s.pc.toNat + width) % 256

/-! ### What one instruction does -/

/-- The instruction completes; register `d` then holds the number `v`; the pc advances by the width; nothing
else changes. -/
def WritesRegister (i : Instr) (s : State) (d : RegIdx) (v width : Nat) : Prop :=
  ∃ t, exec i s = .next t ∧ (t.reg d).toNat = v ∧ PcAdvances width s t ∧
    SameRegsBut [d] s t ∧ SameControl s t ∧ SameMemory s t

/-- The instruction completes with the pc at `target` and nothing else changed. -/
def SetsOnlyPc (i : Instr) (s : State) (target : Byte) : Prop :=
  ∃ t, exec i s = .next t ∧ t.pc = target ∧ SameRegsBut [] s t ∧ SameControl s t ∧ SameMemory s t

/-- The instruction completes with the pc advanced by the width and nothing else changed. -/
def OnlyAdvances (i : Instr) (s : State) (width : Nat) : Prop :=
  ∃ t, exec i s = .next t ∧ PcAdvances width s t ∧ SameRegsBut [] s t ∧ SameControl s t ∧ SameMemory s t

/-- The state after a fatal error, field by field (`60_exceptions.md` R214). -/
def Raised (e : ErrCode) (ir opA opB : Byte) (s t : State) : Prop :=
  t.status = .halted ∧ t.err = e ∧ t.errPc = s.pc ∧ t.errIr = ir ∧ t.errOpA = opA ∧ t.errOpB = opB ∧
    t.pc = s.pc ∧ SameRegsBut [] s t ∧ t.fl = s.fl ∧ SameMemory s t ∧ t.out = s.out

/-- The instruction ends in a fatal error. -/
def RaisesError (i : Instr) (s : State) (e : ErrCode) (ir opA opB : Byte) : Prop :=
  ∃ t, exec i s = .next t ∧ Raised e ir opA opB s t

/-- Format F1R with a register operand (`30_encoding.md` R81): the two bytes of the instruction, and
BadRegister on an operand byte above 7, operand B recorded as fetched (R84, `60_exceptions.md` R213). -/
def OneRegisterForm (c : Byte → Instr) (opcode : Byte) : Prop :=
  (∀ opA, encode (c opA) = [opcode, opA]) ∧
    ∀ (opA : Byte) (s : State), 7 < opA.toNat → RaisesError (c opA) s .badRegister opcode opA s.fetchB

/-- Format F2RR (`30_encoding.md` R81): the three bytes of the instruction, and BadRegister on either operand
byte above 7 (R84, `60_exceptions.md` R213). -/
def TwoRegisterForm (c : Byte → Byte → Instr) (opcode : Byte) : Prop :=
  (∀ opA opB, encode (c opA opB) = [opcode, opA, opB]) ∧
    ∀ (opA opB : Byte) (s : State), (7 < opA.toNat ∨ 7 < opB.toNat) →
      RaisesError (c opA opB) s .badRegister opcode opA opB

/-- A conditional jump on `cond`: taken to the register's value, or past the instruction's 2 bytes. -/
def JumpsWhen (c : Byte → Instr) (cond : State → Prop) : Prop :=
  ∀ (a : RegIdx) (s : State),
    (cond s → SetsOnlyPc (c (regByte a)) s (s.reg a)) ∧ (¬cond s → OnlyAdvances (c (regByte a)) s 2)

/-! ### What an instruction may write -/

/-- The registers an instruction may write: its destination, and register 7 where it moves the stack
pointer (`10_state.md` R23). -/
def destRegs : Instr → List RegIdx
  | .nop => []
  | .hlt => []
  | .ret => [Config.spIndex]
  | .iret => []
  | .push _ => [Config.spIndex]
  | .pop a => Config.spIndex :: (reg? a).toList
  | .prn _ => []
  | .pra _ => []
  | .call _ => [Config.spIndex]
  | .int _ => []
  | .jmp _ => []
  | .jeq _ => []
  | .jne _ => []
  | .jgt _ => []
  | .jlt _ => []
  | .inc a => (reg? a).toList
  | .dec a => (reg? a).toList
  | .not a => (reg? a).toList
  | .ldi a _ => (reg? a).toList
  | .ld a _ => (reg? a).toList
  | .st _ _ => []
  | .add a _ => (reg? a).toList
  | .sub a _ => (reg? a).toList
  | .mul a _ => (reg? a).toList
  | .div a _ => (reg? a).toList
  | .mod a _ => (reg? a).toList
  | .cmp _ _ => []
  | .and a _ => (reg? a).toList
  | .or a _ => (reg? a).toList
  | .xor a _ => (reg? a).toList
  | .shl a _ => (reg? a).toList
  | .shr a _ => (reg? a).toList

/-- The address and the byte an instruction stores, with the expressions its meaning uses: ST, PUSH and CALL
when their operand bytes name registers, no other (`20_memory.md` R54). -/
def stored (i : Instr) (s : State) : Option (Byte × Byte) :=
  match i with
  | .st a b => (reg? a).bind fun ra => (reg? b).map fun rb => (s.reg ra, s.reg rb)
  | .push a => (reg? a).map fun ra => (s.decSp.sp, s.decSp.reg ra)
  | .call a => (reg? a).map fun _ => (s.decSp.sp, s.pc + 2)
  | _ => none

/-- Where a control transfer goes, when it sets the pc itself (`10_state.md` R27). -/
def transferTarget (i : Instr) (s : State) : Option Byte :=
  match i with
  | .jmp a => (reg? a).map s.reg
  | .jeq a => if s.flagE then (reg? a).map s.reg else none
  | .jne a => if s.flagE then none else (reg? a).map s.reg
  | .jlt a => if s.flagL then (reg? a).map s.reg else none
  | .jgt a => if s.flagG then (reg? a).map s.reg else none
  | .call a => (reg? a).map s.decSp.reg
  | .ret => some (s.memRead s.sp)
  | _ => none

/-- The conditional jumps, the only readers of the flags (`10_state.md` R29, R30). -/
def isConditionalJump : Instr → Bool
  | .jeq _ => true
  | .jne _ => true
  | .jlt _ => true
  | .jgt _ => true
  | _ => false

/-- The 32 defined opcode bytes (`30_encoding.md` R86). -/
def definedOpcodes : List Byte :=
  [0x00, 0x01, 0x11, 0x13, 0x45, 0x46, 0x47, 0x48] ++ [0x50, 0x52, 0x54, 0x55, 0x56, 0x57, 0x58, 0x65] ++
  [0x66, 0x69, 0x82, 0x83, 0x84, 0xA0, 0xA1, 0xA2] ++ [0xA3, 0xA4, 0xA7, 0xA8, 0xAA, 0xAB, 0xAC, 0xAD]

/-! ### Sequences of instructions -/

/-- The instructions of a list, one after the other. -/
def execAll : List Instr → State → Result
  | [], s => .next s
  | i :: is, s =>
    match exec i s with
    | .next t => execAll is t
    | .fault r => .fault r
    | .refused r => .refused r

/-! ### The invariant -/

/-- The values `FL` can hold (`10_state.md` R32). -/
def LegalFlags (f : Byte) : Prop := f = 0x00 ∨ f = 0x01 ∨ f = 0x02 ∨ f = 0x04

/-- What the error latch says is so of the bytes it recorded and the registers as they stand (`60_exceptions.md`
R211 to R213, R215). -/
def ErrorCause (s : State) : Prop :=
  match s.err with
  | .noError => s.errPc = 0 ∧ s.errIr = 0 ∧ s.errOpA = 0 ∧ s.errOpB = 0
  | .unknownInstruction => s.errIr ∉ definedOpcodes
  | .badRegister =>
    ∃ i rest, decode [s.errIr, s.errOpA, s.errOpB] = .ok (i, rest) ∧ i.wellFormed = false
  | .divideByZero =>
    (s.errIr = 0xA3 ∨ s.errIr = 0xA4) ∧ s.errOpA.toNat ≤ 7 ∧ ∃ b, reg? s.errOpB = some b ∧ s.reg b = 0

/-- The invariant of the machine: the memory is in canonical form, `FL` holds one of its four values (R32),
an error leaves the machine halted at the offending instruction, whose bytes the latches hold (`60_exceptions.md`
R214), and the latches tell the truth about the cause. -/
structure Inv (s : State) : Prop where
  mem_wf : s.mem.wf = true
  flags_legal : LegalFlags s.fl
  error_halts : s.err ≠ .noError → s.status = .halted
  error_at_pc : s.err ≠ .noError →
    s.errPc = s.pc ∧ s.errIr = s.fetchIr ∧ s.errOpA = s.fetchA ∧ s.errOpB = s.fetchB
  error_cause : ErrorCause s

end Sys2Proof.Machine
end

