-- ==== Sys2Proof/Certificates/Slice0/Obligations.lean ====
section
/-! DEFINITION. The statements for the provers. Each docstring names the rule of spec/ it formalises; where a
clause rests on a decision of the spec itself (`92_eei_decisions.md`), the docstring names the decision and the
log entry. The opcode bytes (D1, log 1), the reduction of pc and stack pointer modulo 256 (D2, D3, log 2),
BadRegister for an operand byte above 7 (D4, log 3) and the error latches (D7, log 5) are decisions of the spec
that stand in nearly every statement, through `encode`, `PcAdvances`, `OneRegisterForm`, `TwoRegisterForm` and
`Raised`; they are named in the docstring where a statement is about them. -/

open Sys2Proof Sys2Proof.Machine

/-! ### Encoding -/

/-- Words written out from the opcode map (`30_encoding.md` R86) and the formats (R81) decode to the
instructions they stand for. The opcode byte values are decision D1 (log 1). -/
def Obligations.SpecWordsDecode : Prop :=
  decode [0x00, 0xFF, 0xFF] = .ok (.nop, [0xFF, 0xFF]) ∧
  decode [0x11] = .ok (.ret, []) ∧
  decode [0x52, 0xFF] = .ok (.int 0xFF, []) ∧
  decode [0x45, 0x07, 0x33] = .ok (.push 7, [0x33]) ∧
  decode [0x57, 0x02] = .ok (.jgt 2, []) ∧
  decode [0x58, 0x02] = .ok (.jlt 2, []) ∧
  decode [0x82, 0x03, 0xFF] = .ok (.ldi 3 0xFF, []) ∧
  decode [0x83, 0x02, 0x00] = .ok (.ld 2 0, []) ∧
  decode [0x84, 0x00, 0x01] = .ok (.st 0 1, []) ∧
  decode [0xA3, 0x09, 0x01] = .ok (.div 9 1, []) ∧
  decode [0xAD, 0x00, 0x01] = .ok (.shr 0 1, []) ∧
  decode [0x5A, 0x00, 0x00] = .error (.unknownInstruction 0x5A)

/-- Decode and encode agree, both ways and at every operand byte: the decoder reads an instruction from the
head of some bytes exactly when they are its encoding followed by the rest (`30_encoding.md` R80, R87, R91). -/
def Obligations.DecodeExactlyInvertsEncode : Prop :=
  ∀ (bytes : List Byte) (i : Instr) (rest : List Byte),
    decode bytes = .ok (i, rest) ↔ bytes = encode i ++ rest

/-- Every byte but the 32 of the opcode map is an unknown instruction: the decoder rejects it by name, and a
step that fetches it raises UnknownInstruction, with the byte, its address and the two bytes after it in the
latches (`30_encoding.md` R88, `60_exceptions.md` R212). Which 32 bytes is decision D1 (log 1). -/
def Obligations.UndefinedOpcodesAreFatal : Prop :=
  (∀ (ir : Byte) (rest : List Byte), decode (ir :: rest) = .error (.unknownInstruction ir) ↔ ir ∉ definedOpcodes) ∧
  ∀ s : State, s.status = .running → s.fetchIr ∉ definedOpcodes →
    ∃ t, step s = .next t ∧ Raised .unknownInstruction s.fetchIr s.fetchA s.fetchB s t

/-! ### The step -/

/-- A step of a running machine is the rule of the instruction its three fetched bytes decode to, run on that
state, and UnknownInstruction where they decode to none (`40_step_cycle.md` R119). Every meaning writes the pc
itself, so the step adds nothing around it (R120). -/
def Obligations.StepRunsDecodedInstruction : Prop :=
  ∀ s : State, s.status = .running →
    (∀ i rest, decode [s.memRead s.pc, s.memRead (s.pc + 1), s.memRead (s.pc + 2)] = .ok (i, rest) →
      step s = exec i s) ∧
    (∀ e, decode [s.memRead s.pc, s.memRead (s.pc + 1), s.memRead (s.pc + 2)] = .error e →
      ∃ t, step s = .next t ∧
        Raised .unknownInstruction (s.memRead s.pc) (s.memRead (s.pc + 1)) (s.memRead (s.pc + 2)) s t)

/-- An instruction whose bytes stand at the pc, at addresses rising modulo 256, is the one a running machine
executes next, whatever follows its bytes (`30_encoding.md` R80, R91; the wrap is decision D2, log 2). -/
def Obligations.StepRunsEncodedInstruction : Prop :=
  ∀ (i : Instr) (s : State), s.status = .running →
    (∀ (k : Nat) (b : Byte), (encode i)[k]? = some b → s.memRead (s.pc + BitVec.ofNat 8 k) = b) →
    step s = exec i s

/-- In HALTED a step leaves every piece of state unchanged (`40_step_cycle.md` R122, R113; decision D8, log 6). -/
def Obligations.HaltedStepChangesNothing : Prop :=
  ∀ s : State, s.status = .halted → step s = .next s

/-- Dispatch is total and no step is stuck: every state has exactly one next state (`40_step_cycle.md` R119,
`70_reset_and_hazards.md` R248); in HALTED it is the state itself (decision D8, log 6). -/
def Obligations.StepAlwaysAnswersNext : Prop :=
  ∀ s : State, ∃ t, step s = .next t

/-- The fetch reads the cells at `pc`, `(pc + 1) mod 256` and `(pc + 2) mod 256`, and these are the next three
bytes the tracer observes, with the pc, the 8 registers, the flags, the run state and the latches
(`40_step_cycle.md` R116, R117, R118; decisions D2, D7, logs 2 and 5). -/
def Obligations.ObservationShowsNextBytes : Prop :=
  ∀ s : State,
    s.fetchBytes = [s.mem.read s.pc.toNat, s.mem.read ((s.pc.toNat + 1) % 256), s.mem.read ((s.pc.toNat + 2) % 256)] ∧
    s.observe.pc = s.pc ∧ s.observe.nextBytes = s.fetchBytes ∧
    (∀ r : RegIdx, s.observe.regs[r.val]? = some (s.reg r)) ∧ s.observe.regs.length = 8 ∧
    s.observe.fl = s.fl ∧ s.observe.status = s.status ∧ s.observe.err = errNumber s.err ∧
    s.observe.errPc = s.errPc ∧ s.observe.errIr = s.errIr ∧ s.observe.errOpA = s.errOpA ∧ s.observe.errOpB = s.errOpB

/-! ### Arithmetic and logic -/

/-- ADD, SUB and MUL wrap modulo 256, write operand A's register and no flag (`41_alu.md` R141, R142, R143). -/
def Obligations.AddSubMulWrap : Prop :=
  TwoRegisterForm .add 0xA0 ∧ TwoRegisterForm .sub 0xA1 ∧ TwoRegisterForm .mul 0xA2 ∧
  ∀ (a b : RegIdx) (s : State),
    WritesRegister (.add (regByte a) (regByte b)) s a (((s.reg a).toNat + (s.reg b).toNat) % 256) 3 ∧
    WritesRegister (.sub (regByte a) (regByte b)) s a (((s.reg a).toNat + 256 - (s.reg b).toNat) % 256) 3 ∧
    WritesRegister (.mul (regByte a) (regByte b)) s a (((s.reg a).toNat * (s.reg b).toNat) % 256) 3

/-- DIV and MOD: floor quotient and remainder of unsigned bytes for a non-zero divisor; DivideByZero with
nothing written, whatever the dividend, for a zero divisor; BadRegister before either (`41_alu.md` R144, R145;
`60_exceptions.md` R211). The unsigned floor reading is decision D10 (log 8); that BadRegister comes first
is D14 (log 10). -/
def Obligations.DivModAndZeroDivisor : Prop :=
  TwoRegisterForm .div 0xA3 ∧ TwoRegisterForm .mod 0xA4 ∧
  ∀ (a b : RegIdx) (s : State),
    (s.reg b ≠ 0 →
      WritesRegister (.div (regByte a) (regByte b)) s a ((s.reg a).toNat / (s.reg b).toNat) 3 ∧
      WritesRegister (.mod (regByte a) (regByte b)) s a ((s.reg a).toNat % (s.reg b).toNat) 3) ∧
    (s.reg b = 0 →
      RaisesError (.div (regByte a) (regByte b)) s .divideByZero 0xA3 (regByte a) (regByte b) ∧
      RaisesError (.mod (regByte a) (regByte b)) s .divideByZero 0xA4 (regByte a) (regByte b))

/-- INC, DEC and NOT: plus one and minus one modulo 256, and `255 - x[a]`, into the same register, no flag
written (`41_alu.md` R146, R147, R151). -/
def Obligations.IncDecNotResults : Prop :=
  OneRegisterForm .inc 0x65 ∧ OneRegisterForm .dec 0x66 ∧ OneRegisterForm .not 0x69 ∧
  ∀ (a : RegIdx) (s : State),
    WritesRegister (.inc (regByte a)) s a (((s.reg a).toNat + 1) % 256) 2 ∧
    WritesRegister (.dec (regByte a)) s a (((s.reg a).toNat + 255) % 256) 2 ∧
    WritesRegister (.not (regByte a)) s a (255 - (s.reg a).toNat) 2

/-- AND, OR and XOR, bit by bit, into operand A's register (`41_alu.md` R148, R149, R150). That the destination
is operand A's register is decision D11 (log 8). -/
def Obligations.AndOrXorBitwise : Prop :=
  TwoRegisterForm .and 0xA8 ∧ TwoRegisterForm .or 0xAA ∧ TwoRegisterForm .xor 0xAB ∧
  ∀ (a b : RegIdx) (s : State), ∃ u v w : Nat,
    WritesRegister (.and (regByte a) (regByte b)) s a u 3 ∧
    WritesRegister (.or (regByte a) (regByte b)) s a v 3 ∧
    WritesRegister (.xor (regByte a) (regByte b)) s a w 3 ∧
    ∀ k : Nat,
      u.testBit k = ((s.reg a).toNat.testBit k && (s.reg b).toNat.testBit k) ∧
      v.testBit k = ((s.reg a).toNat.testBit k || (s.reg b).toNat.testBit k) ∧
      w.testBit k = ((s.reg a).toNat.testBit k).xor ((s.reg b).toNat.testBit k)

/-- SHL and SHR by the whole byte of operand B's register, zero fill, hence 0 for every count of 8 or more
(`41_alu.md` R152, R153; the zero fill and the unmasked count are decision D12, log 8). -/
def Obligations.ShiftsByWholeCount : Prop :=
  TwoRegisterForm .shl 0xAC ∧ TwoRegisterForm .shr 0xAD ∧
  ∀ (a b : RegIdx) (s : State),
    WritesRegister (.shl (regByte a) (regByte b)) s a ((s.reg a).toNat * 2 ^ (s.reg b).toNat % 256) 3 ∧
    WritesRegister (.shr (regByte a) (regByte b)) s a ((s.reg a).toNat / 2 ^ (s.reg b).toNat) 3 ∧
    (8 ≤ (s.reg b).toNat →
      WritesRegister (.shl (regByte a) (regByte b)) s a 0 3 ∧ WritesRegister (.shr (regByte a) (regByte b)) s a 0 3)

/-- CMP sets exactly one of E, L and G by the unsigned order of the two bytes, the other bits 0, and writes
nothing else but the pc (`41_alu.md` R154; unsigned is decision D10, the zero bits 7:3 are D9, logs 7 and 8). -/
def Obligations.CmpSetsOneFlag : Prop :=
  TwoRegisterForm .cmp 0xA7 ∧
  ∀ (a b : RegIdx) (s : State), ∃ t, exec (.cmp (regByte a) (regByte b)) s = .next t ∧
    t.fl.toNat = (if s.reg a = s.reg b then 1 else if (s.reg a).toNat < (s.reg b).toNat then 2 else 4) ∧
    (t.flagE = true ↔ s.reg a = s.reg b) ∧
    (t.flagL = true ↔ (s.reg a).toNat < (s.reg b).toNat) ∧
    (t.flagG = true ↔ (s.reg b).toNat < (s.reg a).toNat) ∧
    PcAdvances 3 s t ∧ SameRegsBut [] s t ∧ SameMemory s t ∧ SameRunState s t ∧ t.out = s.out

/-! ### Control transfer and stack -/

/-- JMP: the pc becomes the register's value (`42_control_stack.md` R171). -/
def Obligations.JmpGoesToRegister : Prop :=
  OneRegisterForm .jmp 0x54 ∧
  ∀ (a : RegIdx) (s : State), SetsOnlyPc (.jmp (regByte a)) s (s.reg a)

/-- JEQ is taken exactly when E (bit 0 of FL) is 1 and JNE exactly when it is 0 (`42_control_stack.md` R172,
R173). BadRegister is raised whether or not the jump would be taken: decision D14 (log 10). -/
def Obligations.JeqJneTestEqual : Prop :=
  OneRegisterForm .jeq 0x55 ∧ OneRegisterForm .jne 0x56 ∧
  JumpsWhen .jeq (fun s => s.fl.toNat.testBit 0 = true) ∧
  JumpsWhen .jne (fun s => s.fl.toNat.testBit 0 = false)

/-- JLT is taken exactly when L (bit 1 of FL) is 1 and JGT exactly when G (bit 2) is 1 (`42_control_stack.md`
R174, R175). BadRegister is raised as for JEQ: decision D14 (log 10). -/
def Obligations.JltJgtTestOrder : Prop :=
  OneRegisterForm .jlt 0x58 ∧ OneRegisterForm .jgt 0x57 ∧
  JumpsWhen .jlt (fun s => s.fl.toNat.testBit 1 = true) ∧
  JumpsWhen .jgt (fun s => s.fl.toNat.testBit 2 = true)

/-- CALL: the stack pointer is decremented, `pc + 2` is stored at the new stack pointer, the pc becomes the
register's value read after the push (`42_control_stack.md` R176). That CALL R7 sees the decremented value is
decision D13 (log 9). -/
def Obligations.CallPushesReturnAddress : Prop :=
  OneRegisterForm .call 0x50 ∧
  ∀ (a : RegIdx) (s : State), ∃ t, exec (.call (regByte a)) s = .next t ∧
    (t.reg 7).toNat = ((s.reg 7).toNat + 255) % 256 ∧
    (s.mem.wf = true → (t.memRead (t.reg 7)).toNat = (s.pc.toNat + 2) % 256) ∧
    t.pc = (if a = 7 then t.reg 7 else s.reg a) ∧
    SameRegsBut [7] s t ∧ SameMemoryBut (t.reg 7) s t ∧ SameControl s t

/-- RET: the byte at the stack pointer becomes the pc and the stack pointer is incremented; no error is
possible (`42_control_stack.md` R177). -/
def Obligations.RetPopsReturnAddress : Prop :=
  encode .ret = [0x11] ∧
  ∀ s : State, ∃ t, exec .ret s = .next t ∧
    t.pc = s.memRead (s.reg 7) ∧ (t.reg 7).toNat = ((s.reg 7).toNat + 1) % 256 ∧
    SameRegsBut [7] s t ∧ SameMemory s t ∧ SameControl s t

/-- PUSH: the stack pointer is decremented and the register, read after that, is stored at the new stack
pointer (`42_control_stack.md` R178). That PUSH R7 stores the decremented value is decision D13 (log 9). -/
def Obligations.PushStoresBelow : Prop :=
  OneRegisterForm .push 0x45 ∧
  ∀ (a : RegIdx) (s : State), ∃ t, exec (.push (regByte a)) s = .next t ∧
    (t.reg 7).toNat = ((s.reg 7).toNat + 255) % 256 ∧
    (s.mem.wf = true → t.memRead (t.reg 7) = (if a = 7 then t.reg 7 else s.reg a)) ∧
    PcAdvances 2 s t ∧ SameRegsBut [7] s t ∧ SameMemoryBut (t.reg 7) s t ∧ SameControl s t

/-- POP: the byte at the stack pointer goes to the register, then the stack pointer is incremented, after the
load also when the destination is register 7 (`42_control_stack.md` R179; POP R7 is decision D13, log 9). The
popped cell keeps its value. -/
def Obligations.PopLoadsThenIncrements : Prop :=
  OneRegisterForm .pop 0x46 ∧
  ∀ (a : RegIdx) (s : State), ∃ t, exec (.pop (regByte a)) s = .next t ∧
    (a ≠ 7 → t.reg a = s.memRead (s.reg 7) ∧ (t.reg 7).toNat = ((s.reg 7).toNat + 1) % 256) ∧
    (a = 7 → (t.reg 7).toNat = ((s.memRead (s.reg 7)).toNat + 1) % 256) ∧
    PcAdvances 2 s t ∧ SameRegsBut [a, 7] s t ∧ SameMemory s t ∧ SameControl s t

/-- The stack is full-descending: a row of pushes leaves the stack pointer below by their number, the byte of
push `k` (from 0) at the old stack pointer minus `k + 1`, and from reset the first lands at 0xF3
(`42_control_stack.md` R180). PUSH R7 stores its own address (R181, decision D13, log 9), so its value is
stated too; the wrap is D3 (log 2). -/
def Obligations.PushesDescendFromStackPointer : Prop :=
  State.reset.reg 7 = 0xF4 ∧
  ∀ (rs : List RegIdx) (s : State), s.mem.wf = true → rs.length ≤ 256 →
    ∃ t, execAll (rs.map fun r => .push (regByte r)) s = .next t ∧
      t.reg 7 = s.reg 7 - BitVec.ofNat 8 rs.length ∧ SameRegsBut [7] s t ∧
      ∀ (k : Nat) (r : RegIdx), rs[k]? = some r →
        t.memRead (s.reg 7 - BitVec.ofNat 8 (k + 1)) =
          (if r = 7 then s.reg 7 - BitVec.ofNat 8 (k + 1) else s.reg r)

/-- "repeating N PUSHes followed by N POPs in reverse order must restore all N original values", and the stack
pointer (`42_control_stack.md` R179), for any registers, repetitions and register 7 included, up to the 256
bytes the address space holds. For register 7 it rests on decision D13 (log 9). -/
def Obligations.PopsUndoPushes : Prop :=
  ∀ (rs : List RegIdx) (s : State), s.mem.wf = true → rs.length ≤ 256 →
    ∃ t, execAll ((rs.map fun r => .push (regByte r)) ++ (rs.reverse.map fun r => .pop (regByte r))) s = .next t ∧
      SameRegsBut [] s t ∧ PcAdvances (4 * rs.length) s t ∧ SameControl s t

/-- "CALL followed by RET returns execution to the instruction immediately following the CALL", from any state
whose stack pointer and the cell it addresses are as CALL left them, and the stack pointer is back
(`42_control_stack.md` R177; for CALL R7, decision D13, log 9). -/
def Obligations.RetReturnsPastCall : Prop :=
  ∀ (a : RegIdx) (s t u : State), s.mem.wf = true → exec (.call (regByte a)) s = .next t →
    u.reg 7 = t.reg 7 → u.memRead (u.reg 7) = t.memRead (t.reg 7) →
    ∃ v, exec .ret u = .next v ∧ PcAdvances 2 s v ∧ v.reg 7 = s.reg 7

/-! ### Data movement, output and system -/

/-- LDI: the immediate byte, whatever it is, into the register; BadRegister only on operand A
(`43_data_io_system.md` R190). -/
def Obligations.LdiLoadsImmediate : Prop :=
  (∀ opA imm, encode (.ldi opA imm) = [0x82, opA, imm]) ∧
  (∀ (opA imm : Byte) (s : State), 7 < opA.toNat → RaisesError (.ldi opA imm) s .badRegister 0x82 opA imm) ∧
  ∀ (a : RegIdx) (imm : Byte) (s : State), WritesRegister (.ldi (regByte a) imm) s a imm.toNat 3

/-- LD: the byte at the address in operand B's register into operand A's (`43_data_io_system.md` R191). -/
def Obligations.LdLoadsByte : Prop :=
  TwoRegisterForm .ld 0x83 ∧
  ∀ (a b : RegIdx) (s : State),
    WritesRegister (.ld (regByte a) (regByte b)) s a (s.memRead (s.reg b)).toNat 3

/-- ST: operand B's register into the cell whose address is in operand A's register; no register is written
(`43_data_io_system.md` R192). -/
def Obligations.StStoresByte : Prop :=
  TwoRegisterForm .st 0x84 ∧
  ∀ (a b : RegIdx) (s : State), ∃ t, exec (.st (regByte a) (regByte b)) s = .next t ∧
    (s.mem.wf = true → t.memRead (s.reg a) = s.reg b) ∧ PcAdvances 3 s t ∧
    SameRegsBut [] s t ∧ SameMemoryBut (s.reg a) s t ∧ SameControl s t

/-- PRN appends `(INT, x[a])` and PRA `(CHAR, x[a])` to the output, and nothing else changes
(`43_data_io_system.md` R193, R194). That output is a sequence of events is decision D15 (log 14). -/
def Obligations.PrnPraAppendEvent : Prop :=
  OneRegisterForm .prn 0x47 ∧ OneRegisterForm .pra 0x48 ∧
  ∀ (a : RegIdx) (s : State),
    (∃ t, exec (.prn (regByte a)) s = .next t ∧ t.out = s.out ++ [{ kind := .int, value := s.reg a }] ∧
      PcAdvances 2 s t ∧ SameRegsBut [] s t ∧ SameMemory s t ∧ t.fl = s.fl ∧ SameRunState s t) ∧
    (∃ t, exec (.pra (regByte a)) s = .next t ∧ t.out = s.out ++ [{ kind := .char, value := s.reg a }] ∧
      PcAdvances 2 s t ∧ SameRegsBut [] s t ∧ SameMemory s t ∧ t.fl = s.fl ∧ SameRunState s t)

/-- A PRN event is rendered as the decimal digits of the unsigned value, no leading zero, then a line break;
a PRA event as the one character (`43_data_io_system.md` R193, R194; decision D15, log 14). -/
def Obligations.RenderedDecimalAndCharacter : Prop :=
  ∀ v : Byte,
    (∃ ds : List Nat, renderEvent { kind := .int, value := v } = ds.map digitGlyph ++ [.lineBreak] ∧
      ds ≠ [] ∧ (∀ d ∈ ds, d < 10) ∧ ds.foldl (fun n d => 10 * n + d) 0 = v.toNat ∧ (ds.head? = some 0 → ds = [0])) ∧
    renderEvent { kind := .char, value := v } = [.char v]

/-- NOP advances one byte and does nothing else (`43_data_io_system.md` R195). -/
def Obligations.NopOnlyAdvances : Prop :=
  encode .nop = [0x00] ∧ ∀ s : State, OnlyAdvances .nop s 1

/-- HLT: HALTED, the pc past the HLT, ERR and everything else unchanged; once halted the core executes nothing
more (`43_data_io_system.md` R196). That a step of the halted machine changes nothing is decision D8 (log 6). -/
def Obligations.HltHaltsPastItself : Prop :=
  encode .hlt = [0x01] ∧
  ∀ s : State, ∃ t, exec .hlt s = .next t ∧ t.status = .halted ∧ PcAdvances 1 s t ∧
    SameErrors s t ∧ SameRegsBut [] s t ∧ SameMemory s t ∧ t.fl = s.fl ∧ t.out = s.out ∧ step t = .next t

/-- INT and IRET are documented no-ops of width 2 and 1, INT's operand byte unchecked (`43_data_io_system.md`
R197, R198; decision D5, log 4). -/
def Obligations.IntIretOnlyAdvance : Prop :=
  (∀ opA, encode (.int opA) = [0x52, opA]) ∧ encode .iret = [0x13] ∧
  ∀ s : State, (∀ opA : Byte, OnlyAdvances (.int opA) s 2) ∧ OnlyAdvances .iret s 1

/-! ### Fatal errors -/

/-- What raising a fatal error does: HALTED, the code, and the four information latches; the pc and everything
else unchanged (`60_exceptions.md` R214). The latches, the codes and the unmoved pc are decision D7 (log 5). -/
def Obligations.RaisingErrorEffect : Prop :=
  (∀ (e : ErrCode) (ir opA opB : Byte) (s : State), Raised e ir opA opB s (raise e ir opA opB s)) ∧
  errNumber .noError = 0 ∧ errNumber .divideByZero = 1 ∧ errNumber .unknownInstruction = 2 ∧ errNumber .badRegister = 3

/-- An operand byte names register `r` exactly when its value is `r`, and no register when it is above 7
(`30_encoding.md` R84; decision D4, log 3). -/
def Obligations.RegisterOperandIsWholeByte : Prop :=
  (∀ (b : Byte) (r : RegIdx), reg? b = some r ↔ b.toNat = r.val) ∧
  (∀ b : Byte, reg? b = none ↔ 7 < b.toNat) ∧
  ∀ r : RegIdx, reg? (regByte r) = some r

/-- A step that ends in a fatal error leaves exactly the state before it plus the latches, whatever the cause,
and a step that does not leaves the latches alone (`60_exceptions.md` R215). The latches and the unmoved pc are decision D7 (log 5). -/
def Obligations.FatalErrorsArePrecise : Prop :=
  ∀ s t : State, s.status = .running → s.err = .noError → step s = .next t →
    (t.err ≠ .noError → Raised t.err s.fetchIr s.fetchA s.fetchB s t) ∧
    (t.err = .noError → SameErrors s t)

/-- Exactly when a step raises each of the three errors, in their order: UnknownInstruction for a byte outside
the map; BadRegister for a decoded instruction that names no register; DivideByZero for DIV or MOD with both
operands registers and the divisor zero (`60_exceptions.md` R211, R212, R213, R216; decisions D1, D4 and D14,
logs 1, 3 and 10). -/
def Obligations.FatalErrorCausesAndPriority : Prop :=
  ∀ s t : State, s.status = .running → s.err = .noError → step s = .next t →
    (t.err = .unknownInstruction ↔ s.fetchIr ∉ definedOpcodes) ∧
    (t.err = .badRegister ↔ ∃ i rest, decode s.fetchBytes = .ok (i, rest) ∧ i.wellFormed = false) ∧
    (t.err = .divideByZero ↔
      (s.fetchIr = 0xA3 ∨ s.fetchIr = 0xA4) ∧ s.fetchA.toNat ≤ 7 ∧ ∃ b : RegIdx, s.fetchB.toNat = b.val ∧ s.reg b = 0)

/-! ### Whole-machine rules -/

/-- `FL` is written by CMP alone: no other instruction, no fatal error, no load by the host changes it; and it
is read by the four conditional jumps alone: for every other instruction another `FL` changes nothing but
`FL` itself, and a conditional jump never carries it into a register, memory or the output (`10_state.md` R30). -/
def Obligations.OnlyCmpWritesFlags : Prop :=
  (∀ (i : Instr) (s t : State), exec i s = .next t → (∀ a b, i ≠ .cmp a b) → t.fl = s.fl) ∧
  (∀ s t : State, step s = .next t → s.fetchIr ≠ 0xA7 → t.fl = s.fl) ∧
  (∀ (e : ErrCode) (ir opA opB : Byte) (s : State), (raise e ir opA opB s).fl = s.fl) ∧
  (∀ (s : State) (addr : Nat) (v : Byte), (s.loadByteAt addr v).fl = s.fl) ∧
  (∀ (i : Instr) (s t : State) (f : Byte), exec i s = .next t → isConditionalJump i = false →
    exec i (s.setFl f) = .next t ∨ exec i (s.setFl f) = .next (t.setFl f)) ∧
  (∀ (i : Instr) (s t : State) (f : Byte), exec i s = .next t → isConditionalJump i = true →
    ∃ u, exec i (s.setFl f) = .next u ∧ SameRegsBut [] t u ∧ SameMemory t u ∧ u.out = t.out)

/-- `STATUS` starts RUNNING, is written only by HLT and by a fatal error, both to HALTED, and no instruction
reads it (`10_state.md` R33). -/
def Obligations.OnlyHltAndErrorsHalt : Prop :=
  State.reset.status = .running ∧
  (∀ (i : Instr) (s t : State), exec i s = .next t →
    (i = .hlt ∧ t.status = .halted) ∨
    (∃ e ir opA opB, e ≠ .noError ∧ Raised e ir opA opB s t) ∨
    (i ≠ .hlt ∧ t.status = s.status)) ∧
  (∀ s t : State, step s = .next t → t.status = .running → s.status = .running) ∧
  (∀ (s : State) (addr : Nat) (v : Byte), (s.loadByteAt addr v).status = s.status) ∧
  (∀ (i : Instr) (s t : State) (r : RunStatus), exec i s = .next t →
    exec i { s with status := r } = .next t ∨ exec i { s with status := r } = .next { t with status := r })

/-- The output only grows, by at most one event a step, and the core never reads it: whatever stood in it, the
step is the same and appends the same (`10_state.md` R39; decision D15, log 14). -/
def Obligations.OutputGrowsAndIsNeverRead : Prop :=
  ∀ s : State, ∃ (t : State) (new : List OutEvent), new.length ≤ 1 ∧
    ((∃ v, new = [{ kind := .int, value := v }]) → s.fetchIr = 0x47) ∧
    ((∃ v, new = [{ kind := .char, value := v }]) → s.fetchIr = 0x48) ∧
    ∀ o : List OutEvent, step { s with out := o } = .next { t with out := o ++ new }

/-- Where the pc goes: a fatal error leaves it; a control transfer that sets it sends it to its target;
everything else advances it by the instruction's width (`10_state.md` R27). The targets are those of
`42_control_stack.md` R171 to R177; that CALL R7 goes to the decremented stack pointer is R181, decision D13
(log 9), and that an error leaves the pc is `60_exceptions.md` R214, decision D7 (log 5). -/
def Obligations.PcTransfersOrAdvances : Prop :=
  ∀ (i : Instr) (s t : State), exec i s = .next t →
    ((∃ e ir opA opB, e ≠ .noError ∧ Raised e ir opA opB s t) ∧ t.pc = s.pc) ∨
    (∃ target, transferTarget i s = some target ∧ t.pc = target) ∨
    (transferTarget i s = none ∧ PcAdvances (encode i).length s t)

/-- The frame of the register file over all 32 instructions: an instruction changes no register but its
destination and, where it moves the stack pointer, register 7 (`10_state.md` R23). -/
def Obligations.RegistersChangeOnlyAtDestinations : Prop :=
  ∀ (i : Instr) (s t : State), exec i s = .next t → SameRegsBut (destRegs i) s t

/-- The frame of memory over all 32 instructions: ST, PUSH and CALL change the one byte at the address they
compute, to the byte they compute, and every other byte, for every instruction, reads as before
(`20_memory.md` R54, `10_state.md` R37). -/
def Obligations.MemoryChangesOnlyWhereStored : Prop :=
  ∀ (i : Instr) (s t : State), exec i s = .next t →
    (∀ addr v, stored i s = some (addr, v) →
      SameMemoryBut addr s t ∧ (s.mem.wf = true → t.memRead addr = v)) ∧
    (stored i s = none → SameMemory s t)

/-- A stored byte is what the very next fetch reads at its address: when the next instruction starts there, the
next step runs by that byte (`20_memory.md` R63). -/
def Obligations.StoreSeenByNextFetch : Prop :=
  ∀ (i : Instr) (s t : State) (addr v : Byte), s.mem.wf = true → exec i s = .next t → stored i s = some (addr, v) →
    (t.pc = addr → t.fetchIr = v) ∧ (t.pc + 1 = addr → t.fetchA = v) ∧ (t.pc + 2 = addr → t.fetchB = v) ∧
    (t.pc = addr → t.status = .running → v = 0x01 →
      ∃ u, step t = .next u ∧ u.status = .halted ∧ u.err = t.err ∧ PcAdvances 1 t u)

/-! ### Registers and memory as state -/

/-- Eight registers, no aliases, none hard-wired: a write of any register, the stack pointer too, is read back,
and no other register changes (`10_state.md` R20). -/
def Obligations.RegistersHoldWhatIsWritten : Prop :=
  ∀ (s : State) (d : RegIdx) (v : Byte),
    (s.setReg d v).reg d = v ∧ SameRegsBut [d] s (s.setReg d v) ∧
    SameControl s (s.setReg d v) ∧ SameMemory s (s.setReg d v) ∧ (s.setReg d v).pc = s.pc

/-- A read returns the byte last written at that address, by `MemWrite` or `load_byte_at`, and 0 where nothing
was written since reset; a write changes nothing else (`20_memory.md` R51, R52). -/
def Obligations.MemoryReadsLastWrite : Prop :=
  (∀ a : Byte, State.reset.memRead a = 0) ∧
  (∀ (s : State) (a v : Byte), s.mem.wf = true →
    (s.memWrite a v).memRead a = v ∧ SameMemoryBut a s (s.memWrite a v) ∧
    SameRegsBut [] s (s.memWrite a v) ∧ SameControl s (s.memWrite a v) ∧ (s.memWrite a v).pc = s.pc) ∧
  (∀ (s : State) (a v : Byte), s.mem.wf = true →
    (s.loadByteAt a.toNat v).memRead a = v ∧ SameMemoryBut a s (s.loadByteAt a.toNat v))

/-- Memories in canonical form that read alike at all 256 addresses are equal data, and every write keeps the
form (`10_state.md` R37: 256 cells, zero at reset). -/
def Obligations.EqualReadsEqualMemories : Prop :=
  (∀ m n : Memory, m.wf = true → n.wf = true → (∀ a : Byte, m.read a.toNat = n.read a.toNat) → m = n) ∧
  ∀ (m : Memory) (a v : Byte), m.wf = true → (m.write a.toNat v).wf = true

/-- The state in which a program begins: byte `k` of the image at address `k`, the cells it does not cover 0,
everything else as reset leaves it (`70_reset_and_hazards.md` R242, `40_step_cycle.md` R112; the reduction of a
load address modulo 256 is decision D3, log 2). -/
def Obligations.BootPlacesImage : Prop :=
  (∀ (s : State) (addr : Nat) (v : Byte), s.loadByteAt addr v = s.loadByteAt (addr % 256) v) ∧
  ∀ image : List Byte, image.length ≤ 256 →
    (∀ a : Byte, (bootState image).memRead a = (image[a.toNat]?).getD 0) ∧
    bootState image = { State.reset with mem := (bootState image).mem } ∧ Inv (bootState image)

/-- Reset as the source gives it: registers 0 to 6 zero, register 7 at 0xF4, pc 0, flags 0, RUNNING, every cell
0 (`10_state.md` R24; the other values, R25, R29, R33, R37, `70_reset_and_hazards.md` R240). -/
def Obligations.ResetValuesOfTheSource : Prop :=
  (∀ r : RegIdx, r ≠ 7 → State.reset.reg r = 0) ∧ State.reset.reg 7 = 0xF4 ∧ State.reset.pc = 0 ∧
  State.reset.fl = 0 ∧ State.reset.status = .running ∧ ∀ a : Byte, State.reset.memRead a = 0

/-- `run()` is iterated `step()` and has no behaviour of its own; once it has reached HALTED more steps change
nothing (`40_step_cycle.md` R114, R122; decisions D20 and D8, log 6). -/
def Obligations.RunIsIteratedStep : Prop :=
  (∀ (n : Nat) (s : State), runFor n s = Host.Core.run Sys2Proof.core n s) ∧
  ∀ (n k : Nat) (s t : State), runFor n s = .next t → t.status = .halted → runFor (n + k) s = .next t

/-! ### The invariant -/

/-- Reset meets the invariant, with no error latched and no output (`10_state.md` R41; decisions D7 and D15,
logs 5 and 14). -/
def Obligations.ResetMeetsInvariant : Prop :=
  Inv State.reset ∧ State.reset.err = .noError ∧ State.reset.out = []

/-- Every step, from every state that meets the invariant, leads to a state that meets it: the memory stays
canonical, `FL` stays one of its four values (`10_state.md` R32), an error is always halted at its instruction
with its bytes in the latches (`60_exceptions.md` R214), and the latched cause is true of the state as it stands
(R211 to R213, R215). The latches are decision D7 (log 5). -/
def Obligations.StepKeepsInvariant : Prop :=
  ∀ s t : State, Inv s → step s = .next t → Inv t
end

