-- ==== Sys2Proof/Laws/PerInstr.lean ====
section
/-! SUPPORT. Lemmas per constructor of `Instr`: the shape of an instruction's encoding, and that its opcode
byte looks up to its own mnemonic. -/

/-- Every instruction is 1, 2 or 3 bytes wide (`30_encoding.md` R80). -/
theorem Sys2Proof.Laws.widthOf_bounds (m : Sys2Proof.Mnemonic) :
    1 ≤ Sys2Proof.widthOf m ∧ Sys2Proof.widthOf m ≤ 3 := by
  cases m <;> decide

/-- An encoding has the instruction's width, which is 1, 2 or 3 bytes (`30_encoding.md` R80, R87). -/
def Sys2Proof.Laws.EncodeShape.Statement (i : Sys2Proof.Instr) : Prop :=
  (Sys2Proof.encode i).length = Sys2Proof.widthOf i.mnemonic ∧
    1 ≤ Sys2Proof.widthOf i.mnemonic ∧ Sys2Proof.widthOf i.mnemonic ≤ 3

theorem Sys2Proof.Laws.EncodeShape.nop : Sys2Proof.Laws.EncodeShape.Statement (.nop) :=
  ⟨rfl, Sys2Proof.Laws.widthOf_bounds _⟩

theorem Sys2Proof.Laws.EncodeShape.hlt : Sys2Proof.Laws.EncodeShape.Statement (.hlt) :=
  ⟨rfl, Sys2Proof.Laws.widthOf_bounds _⟩

theorem Sys2Proof.Laws.EncodeShape.ret : Sys2Proof.Laws.EncodeShape.Statement (.ret) :=
  ⟨rfl, Sys2Proof.Laws.widthOf_bounds _⟩

theorem Sys2Proof.Laws.EncodeShape.iret : Sys2Proof.Laws.EncodeShape.Statement (.iret) :=
  ⟨rfl, Sys2Proof.Laws.widthOf_bounds _⟩

theorem Sys2Proof.Laws.EncodeShape.push (a : Sys2Proof.Byte) : Sys2Proof.Laws.EncodeShape.Statement (.push a) :=
  ⟨rfl, Sys2Proof.Laws.widthOf_bounds _⟩

theorem Sys2Proof.Laws.EncodeShape.pop (a : Sys2Proof.Byte) : Sys2Proof.Laws.EncodeShape.Statement (.pop a) :=
  ⟨rfl, Sys2Proof.Laws.widthOf_bounds _⟩

theorem Sys2Proof.Laws.EncodeShape.prn (a : Sys2Proof.Byte) : Sys2Proof.Laws.EncodeShape.Statement (.prn a) :=
  ⟨rfl, Sys2Proof.Laws.widthOf_bounds _⟩

theorem Sys2Proof.Laws.EncodeShape.pra (a : Sys2Proof.Byte) : Sys2Proof.Laws.EncodeShape.Statement (.pra a) :=
  ⟨rfl, Sys2Proof.Laws.widthOf_bounds _⟩

theorem Sys2Proof.Laws.EncodeShape.call (a : Sys2Proof.Byte) : Sys2Proof.Laws.EncodeShape.Statement (.call a) :=
  ⟨rfl, Sys2Proof.Laws.widthOf_bounds _⟩

theorem Sys2Proof.Laws.EncodeShape.int (a : Sys2Proof.Byte) : Sys2Proof.Laws.EncodeShape.Statement (.int a) :=
  ⟨rfl, Sys2Proof.Laws.widthOf_bounds _⟩

theorem Sys2Proof.Laws.EncodeShape.jmp (a : Sys2Proof.Byte) : Sys2Proof.Laws.EncodeShape.Statement (.jmp a) :=
  ⟨rfl, Sys2Proof.Laws.widthOf_bounds _⟩

theorem Sys2Proof.Laws.EncodeShape.jeq (a : Sys2Proof.Byte) : Sys2Proof.Laws.EncodeShape.Statement (.jeq a) :=
  ⟨rfl, Sys2Proof.Laws.widthOf_bounds _⟩

theorem Sys2Proof.Laws.EncodeShape.jne (a : Sys2Proof.Byte) : Sys2Proof.Laws.EncodeShape.Statement (.jne a) :=
  ⟨rfl, Sys2Proof.Laws.widthOf_bounds _⟩

theorem Sys2Proof.Laws.EncodeShape.jgt (a : Sys2Proof.Byte) : Sys2Proof.Laws.EncodeShape.Statement (.jgt a) :=
  ⟨rfl, Sys2Proof.Laws.widthOf_bounds _⟩

theorem Sys2Proof.Laws.EncodeShape.jlt (a : Sys2Proof.Byte) : Sys2Proof.Laws.EncodeShape.Statement (.jlt a) :=
  ⟨rfl, Sys2Proof.Laws.widthOf_bounds _⟩

theorem Sys2Proof.Laws.EncodeShape.inc (a : Sys2Proof.Byte) : Sys2Proof.Laws.EncodeShape.Statement (.inc a) :=
  ⟨rfl, Sys2Proof.Laws.widthOf_bounds _⟩

theorem Sys2Proof.Laws.EncodeShape.dec (a : Sys2Proof.Byte) : Sys2Proof.Laws.EncodeShape.Statement (.dec a) :=
  ⟨rfl, Sys2Proof.Laws.widthOf_bounds _⟩

theorem Sys2Proof.Laws.EncodeShape.not (a : Sys2Proof.Byte) : Sys2Proof.Laws.EncodeShape.Statement (.not a) :=
  ⟨rfl, Sys2Proof.Laws.widthOf_bounds _⟩

theorem Sys2Proof.Laws.EncodeShape.ldi (a b : Sys2Proof.Byte) : Sys2Proof.Laws.EncodeShape.Statement (.ldi a b) :=
  ⟨rfl, Sys2Proof.Laws.widthOf_bounds _⟩

theorem Sys2Proof.Laws.EncodeShape.ld (a b : Sys2Proof.Byte) : Sys2Proof.Laws.EncodeShape.Statement (.ld a b) :=
  ⟨rfl, Sys2Proof.Laws.widthOf_bounds _⟩

theorem Sys2Proof.Laws.EncodeShape.st (a b : Sys2Proof.Byte) : Sys2Proof.Laws.EncodeShape.Statement (.st a b) :=
  ⟨rfl, Sys2Proof.Laws.widthOf_bounds _⟩

theorem Sys2Proof.Laws.EncodeShape.add (a b : Sys2Proof.Byte) : Sys2Proof.Laws.EncodeShape.Statement (.add a b) :=
  ⟨rfl, Sys2Proof.Laws.widthOf_bounds _⟩

theorem Sys2Proof.Laws.EncodeShape.sub (a b : Sys2Proof.Byte) : Sys2Proof.Laws.EncodeShape.Statement (.sub a b) :=
  ⟨rfl, Sys2Proof.Laws.widthOf_bounds _⟩

theorem Sys2Proof.Laws.EncodeShape.mul (a b : Sys2Proof.Byte) : Sys2Proof.Laws.EncodeShape.Statement (.mul a b) :=
  ⟨rfl, Sys2Proof.Laws.widthOf_bounds _⟩

theorem Sys2Proof.Laws.EncodeShape.div (a b : Sys2Proof.Byte) : Sys2Proof.Laws.EncodeShape.Statement (.div a b) :=
  ⟨rfl, Sys2Proof.Laws.widthOf_bounds _⟩

theorem Sys2Proof.Laws.EncodeShape.mod (a b : Sys2Proof.Byte) : Sys2Proof.Laws.EncodeShape.Statement (.mod a b) :=
  ⟨rfl, Sys2Proof.Laws.widthOf_bounds _⟩

theorem Sys2Proof.Laws.EncodeShape.cmp (a b : Sys2Proof.Byte) : Sys2Proof.Laws.EncodeShape.Statement (.cmp a b) :=
  ⟨rfl, Sys2Proof.Laws.widthOf_bounds _⟩

theorem Sys2Proof.Laws.EncodeShape.and (a b : Sys2Proof.Byte) : Sys2Proof.Laws.EncodeShape.Statement (.and a b) :=
  ⟨rfl, Sys2Proof.Laws.widthOf_bounds _⟩

theorem Sys2Proof.Laws.EncodeShape.or (a b : Sys2Proof.Byte) : Sys2Proof.Laws.EncodeShape.Statement (.or a b) :=
  ⟨rfl, Sys2Proof.Laws.widthOf_bounds _⟩

theorem Sys2Proof.Laws.EncodeShape.xor (a b : Sys2Proof.Byte) : Sys2Proof.Laws.EncodeShape.Statement (.xor a b) :=
  ⟨rfl, Sys2Proof.Laws.widthOf_bounds _⟩

theorem Sys2Proof.Laws.EncodeShape.shl (a b : Sys2Proof.Byte) : Sys2Proof.Laws.EncodeShape.Statement (.shl a b) :=
  ⟨rfl, Sys2Proof.Laws.widthOf_bounds _⟩

theorem Sys2Proof.Laws.EncodeShape.shr (a b : Sys2Proof.Byte) : Sys2Proof.Laws.EncodeShape.Statement (.shr a b) :=
  ⟨rfl, Sys2Proof.Laws.widthOf_bounds _⟩

/-- The opcode byte of an instruction selects its own mnemonic, and the operand decoder of that mnemonic
reads its operand bytes back (`30_encoding.md` R80, R86). -/
def Sys2Proof.Laws.OpcodeLookup.Statement (i : Sys2Proof.Instr) : Prop :=
  Sys2Proof.lookupOpcode (Sys2Proof.opcodeOf i.mnemonic) = some i.mnemonic ∧
    ∀ rest, Sys2Proof.decodeOperands i.mnemonic (i.operandBytes ++ rest) = .ok (i, rest)

theorem Sys2Proof.Laws.OpcodeLookup.nop : Sys2Proof.Laws.OpcodeLookup.Statement (.nop) :=
  ⟨rfl, fun _ => rfl⟩

theorem Sys2Proof.Laws.OpcodeLookup.hlt : Sys2Proof.Laws.OpcodeLookup.Statement (.hlt) :=
  ⟨rfl, fun _ => rfl⟩

theorem Sys2Proof.Laws.OpcodeLookup.ret : Sys2Proof.Laws.OpcodeLookup.Statement (.ret) :=
  ⟨rfl, fun _ => rfl⟩

theorem Sys2Proof.Laws.OpcodeLookup.iret : Sys2Proof.Laws.OpcodeLookup.Statement (.iret) :=
  ⟨rfl, fun _ => rfl⟩

theorem Sys2Proof.Laws.OpcodeLookup.push (a : Sys2Proof.Byte) : Sys2Proof.Laws.OpcodeLookup.Statement (.push a) :=
  ⟨rfl, fun _ => rfl⟩

theorem Sys2Proof.Laws.OpcodeLookup.pop (a : Sys2Proof.Byte) : Sys2Proof.Laws.OpcodeLookup.Statement (.pop a) :=
  ⟨rfl, fun _ => rfl⟩

theorem Sys2Proof.Laws.OpcodeLookup.prn (a : Sys2Proof.Byte) : Sys2Proof.Laws.OpcodeLookup.Statement (.prn a) :=
  ⟨rfl, fun _ => rfl⟩

theorem Sys2Proof.Laws.OpcodeLookup.pra (a : Sys2Proof.Byte) : Sys2Proof.Laws.OpcodeLookup.Statement (.pra a) :=
  ⟨rfl, fun _ => rfl⟩

theorem Sys2Proof.Laws.OpcodeLookup.call (a : Sys2Proof.Byte) : Sys2Proof.Laws.OpcodeLookup.Statement (.call a) :=
  ⟨rfl, fun _ => rfl⟩

theorem Sys2Proof.Laws.OpcodeLookup.int (a : Sys2Proof.Byte) : Sys2Proof.Laws.OpcodeLookup.Statement (.int a) :=
  ⟨rfl, fun _ => rfl⟩

theorem Sys2Proof.Laws.OpcodeLookup.jmp (a : Sys2Proof.Byte) : Sys2Proof.Laws.OpcodeLookup.Statement (.jmp a) :=
  ⟨rfl, fun _ => rfl⟩

theorem Sys2Proof.Laws.OpcodeLookup.jeq (a : Sys2Proof.Byte) : Sys2Proof.Laws.OpcodeLookup.Statement (.jeq a) :=
  ⟨rfl, fun _ => rfl⟩

theorem Sys2Proof.Laws.OpcodeLookup.jne (a : Sys2Proof.Byte) : Sys2Proof.Laws.OpcodeLookup.Statement (.jne a) :=
  ⟨rfl, fun _ => rfl⟩

theorem Sys2Proof.Laws.OpcodeLookup.jgt (a : Sys2Proof.Byte) : Sys2Proof.Laws.OpcodeLookup.Statement (.jgt a) :=
  ⟨rfl, fun _ => rfl⟩

theorem Sys2Proof.Laws.OpcodeLookup.jlt (a : Sys2Proof.Byte) : Sys2Proof.Laws.OpcodeLookup.Statement (.jlt a) :=
  ⟨rfl, fun _ => rfl⟩

theorem Sys2Proof.Laws.OpcodeLookup.inc (a : Sys2Proof.Byte) : Sys2Proof.Laws.OpcodeLookup.Statement (.inc a) :=
  ⟨rfl, fun _ => rfl⟩

theorem Sys2Proof.Laws.OpcodeLookup.dec (a : Sys2Proof.Byte) : Sys2Proof.Laws.OpcodeLookup.Statement (.dec a) :=
  ⟨rfl, fun _ => rfl⟩

theorem Sys2Proof.Laws.OpcodeLookup.not (a : Sys2Proof.Byte) : Sys2Proof.Laws.OpcodeLookup.Statement (.not a) :=
  ⟨rfl, fun _ => rfl⟩

theorem Sys2Proof.Laws.OpcodeLookup.ldi (a b : Sys2Proof.Byte) : Sys2Proof.Laws.OpcodeLookup.Statement (.ldi a b) :=
  ⟨rfl, fun _ => rfl⟩

theorem Sys2Proof.Laws.OpcodeLookup.ld (a b : Sys2Proof.Byte) : Sys2Proof.Laws.OpcodeLookup.Statement (.ld a b) :=
  ⟨rfl, fun _ => rfl⟩

theorem Sys2Proof.Laws.OpcodeLookup.st (a b : Sys2Proof.Byte) : Sys2Proof.Laws.OpcodeLookup.Statement (.st a b) :=
  ⟨rfl, fun _ => rfl⟩

theorem Sys2Proof.Laws.OpcodeLookup.add (a b : Sys2Proof.Byte) : Sys2Proof.Laws.OpcodeLookup.Statement (.add a b) :=
  ⟨rfl, fun _ => rfl⟩

theorem Sys2Proof.Laws.OpcodeLookup.sub (a b : Sys2Proof.Byte) : Sys2Proof.Laws.OpcodeLookup.Statement (.sub a b) :=
  ⟨rfl, fun _ => rfl⟩

theorem Sys2Proof.Laws.OpcodeLookup.mul (a b : Sys2Proof.Byte) : Sys2Proof.Laws.OpcodeLookup.Statement (.mul a b) :=
  ⟨rfl, fun _ => rfl⟩

theorem Sys2Proof.Laws.OpcodeLookup.div (a b : Sys2Proof.Byte) : Sys2Proof.Laws.OpcodeLookup.Statement (.div a b) :=
  ⟨rfl, fun _ => rfl⟩

theorem Sys2Proof.Laws.OpcodeLookup.mod (a b : Sys2Proof.Byte) : Sys2Proof.Laws.OpcodeLookup.Statement (.mod a b) :=
  ⟨rfl, fun _ => rfl⟩

theorem Sys2Proof.Laws.OpcodeLookup.cmp (a b : Sys2Proof.Byte) : Sys2Proof.Laws.OpcodeLookup.Statement (.cmp a b) :=
  ⟨rfl, fun _ => rfl⟩

theorem Sys2Proof.Laws.OpcodeLookup.and (a b : Sys2Proof.Byte) : Sys2Proof.Laws.OpcodeLookup.Statement (.and a b) :=
  ⟨rfl, fun _ => rfl⟩

theorem Sys2Proof.Laws.OpcodeLookup.or (a b : Sys2Proof.Byte) : Sys2Proof.Laws.OpcodeLookup.Statement (.or a b) :=
  ⟨rfl, fun _ => rfl⟩

theorem Sys2Proof.Laws.OpcodeLookup.xor (a b : Sys2Proof.Byte) : Sys2Proof.Laws.OpcodeLookup.Statement (.xor a b) :=
  ⟨rfl, fun _ => rfl⟩

theorem Sys2Proof.Laws.OpcodeLookup.shl (a b : Sys2Proof.Byte) : Sys2Proof.Laws.OpcodeLookup.Statement (.shl a b) :=
  ⟨rfl, fun _ => rfl⟩

theorem Sys2Proof.Laws.OpcodeLookup.shr (a b : Sys2Proof.Byte) : Sys2Proof.Laws.OpcodeLookup.Statement (.shr a b) :=
  ⟨rfl, fun _ => rfl⟩
end

