-- ==== Sys2Proof/Laws/Decode.lean ====
section
/-! SUPPORT. The opcode map as a two-way table. -/

namespace Sys2Proof

theorem mem_allMnemonics (m : Mnemonic) : m ∈ allMnemonics := by cases m <;> decide

/-- Every mnemonic's byte looks up to that mnemonic: no two share a byte (`30_encoding.md` R86). -/
@[simp] theorem lookupOpcode_opcodeOf (m : Mnemonic) : lookupOpcode (opcodeOf m) = some m := by cases m <;> rfl

/-- A byte that looks up to a mnemonic is that mnemonic's byte. -/
theorem lookupOpcode_eq_some_iff (ir : Byte) (m : Mnemonic) : lookupOpcode ir = some m ↔ ir = opcodeOf m := by
  constructor
  · intro h
    have := List.find?_some h
    exact (beq_iff_eq.mp this).symm
  · rintro rfl
    exact lookupOpcode_opcodeOf m

end Sys2Proof
end

