-- ==== Sys2Proof/Laws/State.lean ====
section
/-! SUPPORT. One lemma per field and per update of the state, so that no proof unfolds a record update. -/

namespace Sys2Proof.Machine

variable (s : State)

@[simp] theorem State.setReg_regs (d : RegIdx) (v : Byte) : (s.setReg d v).regs = s.regs.set d v := rfl
@[simp] theorem State.setReg_pc (d : RegIdx) (v : Byte) : (s.setReg d v).pc = s.pc := rfl
@[simp] theorem State.setReg_fl (d : RegIdx) (v : Byte) : (s.setReg d v).fl = s.fl := rfl
@[simp] theorem State.setReg_status (d : RegIdx) (v : Byte) : (s.setReg d v).status = s.status := rfl
@[simp] theorem State.setReg_err (d : RegIdx) (v : Byte) : (s.setReg d v).err = s.err := rfl
@[simp] theorem State.setReg_errPc (d : RegIdx) (v : Byte) : (s.setReg d v).errPc = s.errPc := rfl
@[simp] theorem State.setReg_errIr (d : RegIdx) (v : Byte) : (s.setReg d v).errIr = s.errIr := rfl
@[simp] theorem State.setReg_errOpA (d : RegIdx) (v : Byte) : (s.setReg d v).errOpA = s.errOpA := rfl
@[simp] theorem State.setReg_errOpB (d : RegIdx) (v : Byte) : (s.setReg d v).errOpB = s.errOpB := rfl
@[simp] theorem State.setReg_mem (d : RegIdx) (v : Byte) : (s.setReg d v).mem = s.mem := rfl
@[simp] theorem State.setReg_out (d : RegIdx) (v : Byte) : (s.setReg d v).out = s.out := rfl

@[simp] theorem State.memWrite_regs (a v : Byte) : (s.memWrite a v).regs = s.regs := rfl
@[simp] theorem State.memWrite_pc (a v : Byte) : (s.memWrite a v).pc = s.pc := rfl
@[simp] theorem State.memWrite_fl (a v : Byte) : (s.memWrite a v).fl = s.fl := rfl
@[simp] theorem State.memWrite_status (a v : Byte) : (s.memWrite a v).status = s.status := rfl
@[simp] theorem State.memWrite_err (a v : Byte) : (s.memWrite a v).err = s.err := rfl
@[simp] theorem State.memWrite_errPc (a v : Byte) : (s.memWrite a v).errPc = s.errPc := rfl
@[simp] theorem State.memWrite_errIr (a v : Byte) : (s.memWrite a v).errIr = s.errIr := rfl
@[simp] theorem State.memWrite_errOpA (a v : Byte) : (s.memWrite a v).errOpA = s.errOpA := rfl
@[simp] theorem State.memWrite_errOpB (a v : Byte) : (s.memWrite a v).errOpB = s.errOpB := rfl
@[simp] theorem State.memWrite_mem (a v : Byte) : (s.memWrite a v).mem = s.mem.write a.toNat v := rfl
@[simp] theorem State.memWrite_out (a v : Byte) : (s.memWrite a v).out = s.out := rfl

@[simp] theorem State.loadByteAt_regs (a : Nat) (v : Byte) : (s.loadByteAt a v).regs = s.regs := rfl
@[simp] theorem State.loadByteAt_pc (a : Nat) (v : Byte) : (s.loadByteAt a v).pc = s.pc := rfl
@[simp] theorem State.loadByteAt_fl (a : Nat) (v : Byte) : (s.loadByteAt a v).fl = s.fl := rfl
@[simp] theorem State.loadByteAt_status (a : Nat) (v : Byte) : (s.loadByteAt a v).status = s.status := rfl
@[simp] theorem State.loadByteAt_err (a : Nat) (v : Byte) : (s.loadByteAt a v).err = s.err := rfl
@[simp] theorem State.loadByteAt_errPc (a : Nat) (v : Byte) : (s.loadByteAt a v).errPc = s.errPc := rfl
@[simp] theorem State.loadByteAt_errIr (a : Nat) (v : Byte) : (s.loadByteAt a v).errIr = s.errIr := rfl
@[simp] theorem State.loadByteAt_errOpA (a : Nat) (v : Byte) : (s.loadByteAt a v).errOpA = s.errOpA := rfl
@[simp] theorem State.loadByteAt_errOpB (a : Nat) (v : Byte) : (s.loadByteAt a v).errOpB = s.errOpB := rfl
@[simp] theorem State.loadByteAt_mem (a : Nat) (v : Byte) : (s.loadByteAt a v).mem = s.mem.write (a % Config.memSize) v := rfl
@[simp] theorem State.loadByteAt_out (a : Nat) (v : Byte) : (s.loadByteAt a v).out = s.out := rfl

@[simp] theorem State.setPc_regs (p : Byte) : (s.setPc p).regs = s.regs := rfl
@[simp] theorem State.setPc_pc (p : Byte) : (s.setPc p).pc = p := rfl
@[simp] theorem State.setPc_fl (p : Byte) : (s.setPc p).fl = s.fl := rfl
@[simp] theorem State.setPc_status (p : Byte) : (s.setPc p).status = s.status := rfl
@[simp] theorem State.setPc_err (p : Byte) : (s.setPc p).err = s.err := rfl
@[simp] theorem State.setPc_errPc (p : Byte) : (s.setPc p).errPc = s.errPc := rfl
@[simp] theorem State.setPc_errIr (p : Byte) : (s.setPc p).errIr = s.errIr := rfl
@[simp] theorem State.setPc_errOpA (p : Byte) : (s.setPc p).errOpA = s.errOpA := rfl
@[simp] theorem State.setPc_errOpB (p : Byte) : (s.setPc p).errOpB = s.errOpB := rfl
@[simp] theorem State.setPc_mem (p : Byte) : (s.setPc p).mem = s.mem := rfl
@[simp] theorem State.setPc_out (p : Byte) : (s.setPc p).out = s.out := rfl

@[simp] theorem State.advance_regs (m : Mnemonic) : (s.advance m).regs = s.regs := rfl
@[simp] theorem State.advance_pc (m : Mnemonic) : (s.advance m).pc = s.pc + BitVec.ofNat 8 (widthOf m) := rfl
@[simp] theorem State.advance_fl (m : Mnemonic) : (s.advance m).fl = s.fl := rfl
@[simp] theorem State.advance_status (m : Mnemonic) : (s.advance m).status = s.status := rfl
@[simp] theorem State.advance_err (m : Mnemonic) : (s.advance m).err = s.err := rfl
@[simp] theorem State.advance_errPc (m : Mnemonic) : (s.advance m).errPc = s.errPc := rfl
@[simp] theorem State.advance_errIr (m : Mnemonic) : (s.advance m).errIr = s.errIr := rfl
@[simp] theorem State.advance_errOpA (m : Mnemonic) : (s.advance m).errOpA = s.errOpA := rfl
@[simp] theorem State.advance_errOpB (m : Mnemonic) : (s.advance m).errOpB = s.errOpB := rfl
@[simp] theorem State.advance_mem (m : Mnemonic) : (s.advance m).mem = s.mem := rfl
@[simp] theorem State.advance_out (m : Mnemonic) : (s.advance m).out = s.out := rfl

@[simp] theorem State.emit_regs (k : OutKind) (v : Byte) : (s.emit k v).regs = s.regs := rfl
@[simp] theorem State.emit_pc (k : OutKind) (v : Byte) : (s.emit k v).pc = s.pc := rfl
@[simp] theorem State.emit_fl (k : OutKind) (v : Byte) : (s.emit k v).fl = s.fl := rfl
@[simp] theorem State.emit_status (k : OutKind) (v : Byte) : (s.emit k v).status = s.status := rfl
@[simp] theorem State.emit_err (k : OutKind) (v : Byte) : (s.emit k v).err = s.err := rfl
@[simp] theorem State.emit_errPc (k : OutKind) (v : Byte) : (s.emit k v).errPc = s.errPc := rfl
@[simp] theorem State.emit_errIr (k : OutKind) (v : Byte) : (s.emit k v).errIr = s.errIr := rfl
@[simp] theorem State.emit_errOpA (k : OutKind) (v : Byte) : (s.emit k v).errOpA = s.errOpA := rfl
@[simp] theorem State.emit_errOpB (k : OutKind) (v : Byte) : (s.emit k v).errOpB = s.errOpB := rfl
@[simp] theorem State.emit_mem (k : OutKind) (v : Byte) : (s.emit k v).mem = s.mem := rfl
@[simp] theorem State.emit_out (k : OutKind) (v : Byte) : (s.emit k v).out = s.out ++ [{ kind := k, value := v }] := rfl

@[simp] theorem State.setFl_regs (f : Byte) : (s.setFl f).regs = s.regs := rfl
@[simp] theorem State.setFl_pc (f : Byte) : (s.setFl f).pc = s.pc := rfl
@[simp] theorem State.setFl_fl (f : Byte) : (s.setFl f).fl = f := rfl
@[simp] theorem State.setFl_status (f : Byte) : (s.setFl f).status = s.status := rfl
@[simp] theorem State.setFl_err (f : Byte) : (s.setFl f).err = s.err := rfl
@[simp] theorem State.setFl_errPc (f : Byte) : (s.setFl f).errPc = s.errPc := rfl
@[simp] theorem State.setFl_errIr (f : Byte) : (s.setFl f).errIr = s.errIr := rfl
@[simp] theorem State.setFl_errOpA (f : Byte) : (s.setFl f).errOpA = s.errOpA := rfl
@[simp] theorem State.setFl_errOpB (f : Byte) : (s.setFl f).errOpB = s.errOpB := rfl
@[simp] theorem State.setFl_mem (f : Byte) : (s.setFl f).mem = s.mem := rfl
@[simp] theorem State.setFl_out (f : Byte) : (s.setFl f).out = s.out := rfl

@[simp] theorem State.decSp_regs : (s.decSp).regs = s.regs.set Config.spIndex (s.sp - 1) := rfl
@[simp] theorem State.decSp_pc : (s.decSp).pc = s.pc := rfl
@[simp] theorem State.decSp_fl : (s.decSp).fl = s.fl := rfl
@[simp] theorem State.decSp_status : (s.decSp).status = s.status := rfl
@[simp] theorem State.decSp_err : (s.decSp).err = s.err := rfl
@[simp] theorem State.decSp_errPc : (s.decSp).errPc = s.errPc := rfl
@[simp] theorem State.decSp_errIr : (s.decSp).errIr = s.errIr := rfl
@[simp] theorem State.decSp_errOpA : (s.decSp).errOpA = s.errOpA := rfl
@[simp] theorem State.decSp_errOpB : (s.decSp).errOpB = s.errOpB := rfl
@[simp] theorem State.decSp_mem : (s.decSp).mem = s.mem := rfl
@[simp] theorem State.decSp_out : (s.decSp).out = s.out := rfl

@[simp] theorem State.incSp_regs : (s.incSp).regs = s.regs.set Config.spIndex (s.sp + 1) := rfl
@[simp] theorem State.incSp_pc : (s.incSp).pc = s.pc := rfl
@[simp] theorem State.incSp_fl : (s.incSp).fl = s.fl := rfl
@[simp] theorem State.incSp_status : (s.incSp).status = s.status := rfl
@[simp] theorem State.incSp_err : (s.incSp).err = s.err := rfl
@[simp] theorem State.incSp_errPc : (s.incSp).errPc = s.errPc := rfl
@[simp] theorem State.incSp_errIr : (s.incSp).errIr = s.errIr := rfl
@[simp] theorem State.incSp_errOpA : (s.incSp).errOpA = s.errOpA := rfl
@[simp] theorem State.incSp_errOpB : (s.incSp).errOpB = s.errOpB := rfl
@[simp] theorem State.incSp_mem : (s.incSp).mem = s.mem := rfl
@[simp] theorem State.incSp_out : (s.incSp).out = s.out := rfl

@[simp] theorem State.pushWith_regs (v : State → Byte) : (s.pushWith v).regs = s.regs.set Config.spIndex (s.sp - 1) := rfl
@[simp] theorem State.pushWith_pc (v : State → Byte) : (s.pushWith v).pc = s.pc := rfl
@[simp] theorem State.pushWith_fl (v : State → Byte) : (s.pushWith v).fl = s.fl := rfl
@[simp] theorem State.pushWith_status (v : State → Byte) : (s.pushWith v).status = s.status := rfl
@[simp] theorem State.pushWith_err (v : State → Byte) : (s.pushWith v).err = s.err := rfl
@[simp] theorem State.pushWith_errPc (v : State → Byte) : (s.pushWith v).errPc = s.errPc := rfl
@[simp] theorem State.pushWith_errIr (v : State → Byte) : (s.pushWith v).errIr = s.errIr := rfl
@[simp] theorem State.pushWith_errOpA (v : State → Byte) : (s.pushWith v).errOpA = s.errOpA := rfl
@[simp] theorem State.pushWith_errOpB (v : State → Byte) : (s.pushWith v).errOpB = s.errOpB := rfl
@[simp] theorem State.pushWith_mem (v : State → Byte) : (s.pushWith v).mem = s.mem.write s.decSp.sp.toNat (v s.decSp) := rfl
@[simp] theorem State.pushWith_out (v : State → Byte) : (s.pushWith v).out = s.out := rfl

@[simp] theorem State.halt_regs : s.halt.regs = s.regs := rfl
@[simp] theorem State.halt_pc : s.halt.pc = s.pc := rfl
@[simp] theorem State.halt_fl : s.halt.fl = s.fl := rfl
@[simp] theorem State.halt_status : s.halt.status = .halted := rfl
@[simp] theorem State.halt_err : s.halt.err = s.err := rfl
@[simp] theorem State.halt_errPc : s.halt.errPc = s.errPc := rfl
@[simp] theorem State.halt_errIr : s.halt.errIr = s.errIr := rfl
@[simp] theorem State.halt_errOpA : s.halt.errOpA = s.errOpA := rfl
@[simp] theorem State.halt_errOpB : s.halt.errOpB = s.errOpB := rfl
@[simp] theorem State.halt_mem : s.halt.mem = s.mem := rfl
@[simp] theorem State.halt_out : s.halt.out = s.out := rfl

@[simp] theorem raise_regs (e : ErrCode) (ir opA opB : Byte) : (raise e ir opA opB s).regs = s.regs := rfl
@[simp] theorem raise_pc (e : ErrCode) (ir opA opB : Byte) : (raise e ir opA opB s).pc = s.pc := rfl
@[simp] theorem raise_fl (e : ErrCode) (ir opA opB : Byte) : (raise e ir opA opB s).fl = s.fl := rfl
@[simp] theorem raise_status (e : ErrCode) (ir opA opB : Byte) : (raise e ir opA opB s).status = .halted := rfl
@[simp] theorem raise_err (e : ErrCode) (ir opA opB : Byte) : (raise e ir opA opB s).err = e := rfl
@[simp] theorem raise_errPc (e : ErrCode) (ir opA opB : Byte) : (raise e ir opA opB s).errPc = s.pc := rfl
@[simp] theorem raise_errIr (e : ErrCode) (ir opA opB : Byte) : (raise e ir opA opB s).errIr = ir := rfl
@[simp] theorem raise_errOpA (e : ErrCode) (ir opA opB : Byte) : (raise e ir opA opB s).errOpA = opA := rfl
@[simp] theorem raise_errOpB (e : ErrCode) (ir opA opB : Byte) : (raise e ir opA opB s).errOpB = opB := rfl
@[simp] theorem raise_mem (e : ErrCode) (ir opA opB : Byte) : (raise e ir opA opB s).mem = s.mem := rfl
@[simp] theorem raise_out (e : ErrCode) (ir opA opB : Byte) : (raise e ir opA opB s).out = s.out := rfl

end Sys2Proof.Machine
end

