-- ==== Sys2Proof/Laws/Memory.lean ====
section
/-! SUPPORT. Memory: reads after writes, the canonical form and that every operation keeps it. -/

namespace Sys2Proof.Machine

/-- The cell of the list is an address with a byte of `CELL_BITS` bits (`00_scope.md` R6). -/
theorem cell_eq : Host.Cell = (Nat × CellByte) := rfl

@[simp] theorem Memory.read_nil (a : Nat) : Memory.read [] a = Config.memReset := rfl

/-- An address below the first possible entry reads as the reset contents. -/
theorem Memory.read_below {lo : Nat} {m : Memory} (h : Memory.wfFrom lo m = true) {a : Nat} (ha : a < lo) :
    Memory.read m a = Config.memReset := by
  induction m generalizing lo with
  | nil => rfl
  | cons c m ih =>
    obtain ⟨b, w⟩ := c
    simp only [Memory.wfFrom, Bool.and_eq_true, decide_eq_true_eq] at h
    have hne : a ≠ b := by omega
    simp only [Memory.read, if_neg hne]
    exact ih h.2 (by omega)

/-- The canonical form from an address up holds from any lower address. -/
theorem Memory.wfFrom_mono {lo hi : Nat} {m : Memory} (h : Memory.wfFrom hi m = true) (hle : lo ≤ hi) :
    Memory.wfFrom lo m = true := by
  cases m with
  | nil => rfl
  | cons c m =>
    simp only [Memory.wfFrom, Bool.and_eq_true, decide_eq_true_eq] at h ⊢
    exact ⟨⟨⟨by omega, h.1.1.2⟩, h.1.2⟩, h.2⟩

theorem Memory.read_cons_self {a : Nat} {v : Byte} {m : Memory} (h : Memory.read m a = Config.memReset) :
    Memory.read (Memory.cons a v m) a = v := by
  by_cases hv : v = Config.memReset
  · simp [Memory.cons, hv, h]
  · simp [Memory.cons, hv, Memory.read]

theorem Memory.read_cons_other {a c : Nat} (v : Byte) (m : Memory) (hne : c ≠ a) :
    Memory.read (Memory.cons a v m) c = Memory.read m c := by
  by_cases hv : v = Config.memReset
  · simp [Memory.cons, hv]
  · simp [Memory.cons, hv, Memory.read, hne]

theorem Memory.cons_wfFrom {lo a : Nat} (v : Byte) {m : Memory} (h : Memory.wfFrom (a + 1) m = true)
    (hlo : lo ≤ a) (ha : a < Config.memSize) : Memory.wfFrom lo (Memory.cons a v m) = true := by
  by_cases hv : v = Config.memReset
  · simpa [Memory.cons, hv] using Memory.wfFrom_mono h (by omega)
  · simp [Memory.cons, hv, Memory.wfFrom, hlo, ha, h]

/-- A write leaves every other address alone, in canonical form or not (`20_memory.md` R52). -/
theorem Memory.read_write_other (m : Memory) {a c : Nat} (v : Byte) (hne : c ≠ a) :
    Memory.read (Memory.write m a v) c = Memory.read m c := by
  induction m with
  | nil => exact Memory.read_cons_other v [] hne
  | cons e m ih =>
    obtain ⟨b, w⟩ := e
    simp only [Memory.write]
    split
    · exact Memory.read_cons_other v _ hne
    · split
      · rename_i hab
        rw [Memory.read_cons_other v m hne, Memory.read, if_neg (by omega)]
      · simp only [Memory.read, ih]

/-- A read after a write of the same address gives the byte written (`20_memory.md` R51, R52). -/
theorem Memory.read_write_same {lo : Nat} {m : Memory} (h : Memory.wfFrom lo m = true) (a : Nat) (v : Byte) :
    Memory.read (Memory.write m a v) a = v := by
  induction m generalizing lo with
  | nil => exact Memory.read_cons_self rfl
  | cons e m ih =>
    obtain ⟨b, w⟩ := e
    have h' := h
    simp only [Memory.wfFrom, Bool.and_eq_true, decide_eq_true_eq] at h'
    simp only [Memory.write]
    split
    · rename_i hlt
      exact Memory.read_cons_self (Memory.read_below (lo := b) (by simp [Memory.wfFrom, h']) hlt)
    · split
      · rename_i _ hab
        exact Memory.read_cons_self (Memory.read_below h'.2 (by omega))
      · rename_i _ hne
        rw [Memory.read, if_neg hne]
        exact ih h'.2

/-- A write inside the address space keeps the canonical form. -/
theorem Memory.write_wfFrom {lo : Nat} {m : Memory} (h : Memory.wfFrom lo m = true) {a : Nat} (v : Byte)
    (hlo : lo ≤ a) (ha : a < Config.memSize) : Memory.wfFrom lo (Memory.write m a v) = true := by
  induction m generalizing lo with
  | nil => exact Memory.cons_wfFrom v rfl hlo ha
  | cons e m ih =>
    obtain ⟨b, w⟩ := e
    have h' := h
    simp only [Memory.wfFrom, Bool.and_eq_true, decide_eq_true_eq] at h'
    simp only [Memory.write]
    split
    · exact Memory.cons_wfFrom v (by simp [Memory.wfFrom, h']; omega) hlo ha
    · split
      · rename_i _ hab
        exact Memory.cons_wfFrom v (hab ▸ h'.2) hlo ha
      · have := ih h'.2 (by omega)
        simp [Memory.wfFrom, h', this]

/-- The memory of the state after reset is in canonical form. -/
theorem State.reset_mem_wf : State.reset.mem.wf = true := rfl

/-- `MemWrite` keeps the canonical form. -/
theorem State.memWrite_wf {s : State} (h : s.mem.wf = true) (a v : Byte) : (s.memWrite a v).mem.wf = true :=
  Memory.write_wfFrom h v (Nat.zero_le _) a.isLt

/-- `load_byte_at` keeps the canonical form. -/
theorem State.loadByteAt_wf {s : State} (h : s.mem.wf = true) (a : Nat) (v : Byte) :
    (s.loadByteAt a v).mem.wf = true :=
  Memory.write_wfFrom h v (Nat.zero_le _) (Nat.mod_lt _ (by decide))

theorem State.memRead_memWrite_same {s : State} (h : s.mem.wf = true) (a v : Byte) :
    (s.memWrite a v).memRead a = v := Memory.read_write_same h ..

theorem State.memRead_memWrite_other (s : State) {a c : Byte} (v : Byte) (hne : c ≠ a) :
    (s.memWrite a v).memRead c = s.memRead c :=
  Memory.read_write_other _ v (fun h => hne (BitVec.eq_of_toNat_eq h))

/-- A push keeps the canonical form. -/
theorem State.pushWith_wf {s : State} (h : s.mem.wf = true) (v : State → Byte) : (s.pushWith v).mem.wf = true :=
  Memory.write_wfFrom h _ (Nat.zero_le _) s.decSp.sp.isLt

@[simp] theorem State.memRead_setReg (s : State) (d : RegIdx) (v a : Byte) : (s.setReg d v).memRead a = s.memRead a := rfl

@[simp] theorem State.memRead_setPc (s : State) (p a : Byte) : (s.setPc p).memRead a = s.memRead a := rfl

@[simp] theorem State.memRead_advance (s : State) (m : Mnemonic) (a : Byte) : (s.advance m).memRead a = s.memRead a := rfl

@[simp] theorem State.memRead_emit (s : State) (k : OutKind) (v a : Byte) : (s.emit k v).memRead a = s.memRead a := rfl

@[simp] theorem State.memRead_setFl (s : State) (f a : Byte) : (s.setFl f).memRead a = s.memRead a := rfl

@[simp] theorem State.memRead_halt (s : State) (a : Byte) : s.halt.memRead a = s.memRead a := rfl

@[simp] theorem State.memRead_decSp (s : State) (a : Byte) : s.decSp.memRead a = s.memRead a := rfl

@[simp] theorem State.memRead_incSp (s : State) (a : Byte) : s.incSp.memRead a = s.memRead a := rfl

@[simp] theorem raise_memRead (e : ErrCode) (ir opA opB : Byte) (s : State) (a : Byte) :
    (raise e ir opA opB s).memRead a = s.memRead a := rfl

end Sys2Proof.Machine
end

