-- ==== Sys2Proof/Laws/Registers.lean ====
section
/-! SUPPORT. The register file and the stack pointer: what a read sees of a write. -/

namespace Sys2Proof.Machine

/-- A register read after a register write (`10_state.md` R20). -/
@[simp] theorem RegFile.get_set (r : RegFile) (i j : RegIdx) (v : Byte) :
    (r.set i v).get j = if j = i then v else r.get j := by
  fin_cases i <;> fin_cases j <;> rfl

/-- Two register files that read alike are equal. -/
theorem RegFile.ext_get (r q : RegFile) (h : ∀ i, r.get i = q.get i) : r = q := by
  have h0 := h 0; have h1 := h 1; have h2 := h 2; have h3 := h 3
  have h4 := h 4; have h5 := h 5; have h6 := h 6; have h7 := h 7
  cases r; cases q
  simp_all [RegFile.get]

@[simp] theorem State.reg_setReg (s : State) (d r : RegIdx) (v : Byte) :
    (s.setReg d v).reg r = if r = d then v else s.reg r := RegFile.get_set ..

/-- A register read depends on the register file alone. -/
theorem State.reg_congr {s t : State} (h : t.regs = s.regs) (r : RegIdx) : t.reg r = s.reg r := by
  simp [State.reg, h]

@[simp] theorem State.reg_memWrite (s : State) (a v : Byte) (r : RegIdx) : (s.memWrite a v).reg r = s.reg r := rfl

@[simp] theorem State.reg_setPc (s : State) (p : Byte) (r : RegIdx) : (s.setPc p).reg r = s.reg r := rfl

@[simp] theorem State.reg_advance (s : State) (m : Mnemonic) (r : RegIdx) : (s.advance m).reg r = s.reg r := rfl

@[simp] theorem State.reg_emit (s : State) (k : OutKind) (v : Byte) (r : RegIdx) : (s.emit k v).reg r = s.reg r := rfl

@[simp] theorem State.reg_setFl (s : State) (f : Byte) (r : RegIdx) : (s.setFl f).reg r = s.reg r := rfl

@[simp] theorem State.reg_halt (s : State) (r : RegIdx) : s.halt.reg r = s.reg r := rfl

@[simp] theorem State.reg_decSp (s : State) (r : RegIdx) :
    s.decSp.reg r = if r = 7 then s.sp - 1 else s.reg r := State.reg_setReg ..

@[simp] theorem State.reg_incSp (s : State) (r : RegIdx) :
    s.incSp.reg r = if r = 7 then s.sp + 1 else s.reg r := State.reg_setReg ..

@[simp] theorem State.reg_pushWith (s : State) (v : State → Byte) (r : RegIdx) :
    (s.pushWith v).reg r = if r = 7 then s.sp - 1 else s.reg r := State.reg_decSp ..

@[simp] theorem raise_reg (e : ErrCode) (ir opA opB : Byte) (s : State) (r : RegIdx) :
    (raise e ir opA opB s).reg r = s.reg r := rfl

/-- The stack pointer's index (`00_scope.md` R6). -/
theorem Config_spIndex_eq : Config.spIndex = 7 := rfl

/-- The stack pointer is register 7 (`10_state.md` R21). -/
theorem State.sp_eq_reg (s : State) : s.sp = s.reg 7 := rfl

@[simp] theorem State.decSp_sp (s : State) : s.decSp.sp = s.sp - 1 := by simp [State.sp, Config_spIndex_eq]

end Sys2Proof.Machine
end

