-- ==== Sys2Proof/Laws/Operands.lean ====
section
/-! SUPPORT. Operand decode and the shared shapes of the instructions: for each, once, everything it can do. -/

namespace Sys2Proof.Machine

/-- Operand decode with the policy at its value, fault (`30_encoding.md` R84). -/
theorem reg?_eq (b : Byte) : reg? b = if h : b.toNat < 8 then some ⟨b.toNat, h⟩ else none := rfl

theorem reg?_eq_some_iff (b : Byte) (r : RegIdx) : reg? b = some r ↔ b.toNat = r.val := by
  rw [reg?_eq]
  split
  · simp [Fin.ext_iff]
  · constructor
    · intro h; cases h
    · intro h; omega

theorem reg?_eq_none_iff (b : Byte) : reg? b = none ↔ 7 < b.toNat := by
  rw [reg?_eq]
  split
  · simp; omega
  · simp; omega

@[simp] theorem reg?_regByte (r : RegIdx) : reg? (regByte r) = some r := by
  fin_cases r <;> rfl

/-- Well-formedness and operand decode agree on which bytes name a register (`30_encoding.md` R84). -/
theorem isRegByte_eq_isSome_reg? (b : Byte) : isRegByte b = (reg? b).isSome := by
  unfold isRegByte
  rw [reg?_eq]
  split <;> simp <;> omega

/-- An operand byte that names no register ends the instruction in BadRegister. -/
theorem withReg_none {m : Mnemonic} {opA opB : Byte} {s : State} {k : RegIdx → Result} (h : reg? opA = none) :
    withReg m opA opB s k = badRegister m opA opB s := by simp [withReg, h]

@[simp] theorem withReg_regByte (m : Mnemonic) (a : RegIdx) (opB : Byte) (s : State) (k : RegIdx → Result) :
    withReg m (regByte a) opB s k = k a := by simp [withReg]

@[simp] theorem withRegs_regByte (m : Mnemonic) (a b : RegIdx) (s : State) (k : RegIdx → RegIdx → Result) :
    withRegs m (regByte a) (regByte b) s k = k a b := by simp [withRegs]

/-- Everything the one-register check can do. -/
theorem withReg_next {m : Mnemonic} {opA opB : Byte} {s t : State} {k : RegIdx → Result}
    (h : withReg m opA opB s k = .next t) :
    (reg? opA = none ∧ t = raise .badRegister (opcodeOf m) opA opB s) ∨ ∃ a, reg? opA = some a ∧ k a = .next t := by
  unfold withReg at h
  split at h
  · rename_i hn
    exact .inl ⟨hn, by simpa [badRegister, eq_comm] using h⟩
  · rename_i a ha
    exact .inr ⟨a, ha, h⟩

/-- Everything the two-register check can do. -/
theorem withRegs_next {m : Mnemonic} {opA opB : Byte} {s t : State} {k : RegIdx → RegIdx → Result}
    (h : withRegs m opA opB s k = .next t) :
    ((reg? opA = none ∨ reg? opB = none) ∧ t = raise .badRegister (opcodeOf m) opA opB s) ∨
      ∃ a b, reg? opA = some a ∧ reg? opB = some b ∧ k a b = .next t := by
  rcases withReg_next h with ⟨hn, ht⟩ | ⟨a, ha, h⟩
  · exact .inl ⟨.inl hn, ht⟩
  · cases hb : reg? opB with
    | none => exact .inl ⟨.inr rfl, by simpa [hb, badRegister, eq_comm] using h⟩
    | some b => exact .inr ⟨a, b, ha, rfl, by simpa [hb] using h⟩

/-- Everything a two-operand ALU instruction can do (`41_alu.md` R140). -/
theorem aluTwo_next {m : Mnemonic} {f : Byte → Byte → Byte} {opA opB : Byte} {s t : State}
    (h : aluTwo m f opA opB s = .next t) :
    ((reg? opA = none ∨ reg? opB = none) ∧ t = raise .badRegister (opcodeOf m) opA opB s) ∨
      ∃ a b, reg? opA = some a ∧ reg? opB = some b ∧ t = (s.setReg a (f (s.reg a) (s.reg b))).advance m := by
  rcases withRegs_next h with h | ⟨a, b, ha, hb, h⟩
  · exact .inl h
  · exact .inr ⟨a, b, ha, hb, by simpa [eq_comm] using h⟩

/-- Everything a one-operand ALU instruction can do (`41_alu.md` R140). -/
theorem aluOne_next {m : Mnemonic} {f : Byte → Byte} {opA : Byte} {s t : State} (h : aluOne m f opA s = .next t) :
    (reg? opA = none ∧ t = raise .badRegister (opcodeOf m) opA s.fetchB s) ∨
      ∃ a, reg? opA = some a ∧ t = (s.setReg a (f (s.reg a))).advance m := by
  rcases withReg_next h with h | ⟨a, ha, h⟩
  · exact .inl h
  · exact .inr ⟨a, ha, by simpa [eq_comm] using h⟩

/-- Everything DIV and MOD can do (`41_alu.md` R144, R145). -/
theorem aluDivide_next {m : Mnemonic} {f : Byte → Byte → Byte} {opA opB : Byte} {s t : State}
    (h : aluDivide m f opA opB s = .next t) :
    ((reg? opA = none ∨ reg? opB = none) ∧ t = raise .badRegister (opcodeOf m) opA opB s) ∨
      ∃ a b, reg? opA = some a ∧ reg? opB = some b ∧
        ((s.reg b = 0 ∧ t = raise .divideByZero (opcodeOf m) opA opB s) ∨
          (s.reg b ≠ 0 ∧ t = (s.setReg a (f (s.reg a) (s.reg b))).advance m)) := by
  rcases withRegs_next h with h | ⟨a, b, ha, hb, h⟩
  · exact .inl h
  · refine .inr ⟨a, b, ha, hb, ?_⟩
    split at h
    · rename_i h0
      exact .inl ⟨h0, by simpa [eq_comm] using h⟩
    · rename_i h0
      exact .inr ⟨h0, by simpa [eq_comm] using h⟩

/-- Everything a jump can do (`42_control_stack.md` R171 to R175). -/
theorem jumpIf_next {m : Mnemonic} {taken : Bool} {opA : Byte} {s t : State} (h : jumpIf m taken opA s = .next t) :
    (reg? opA = none ∧ t = raise .badRegister (opcodeOf m) opA s.fetchB s) ∨
      ∃ a, reg? opA = some a ∧ t = if taken then s.setPc (s.reg a) else s.advance m := by
  rcases withReg_next h with h | ⟨a, ha, h⟩
  · exact .inl h
  · exact .inr ⟨a, ha, by simpa [eq_comm] using h⟩

end Sys2Proof.Machine
end

