-- ==== Sys2Proof/Laws/Exec.lean ====
section
/-! SUPPORT. For each meaning that is not one of the shared shapes, once, everything it can do; and the
fetch. -/

namespace Sys2Proof.Machine

variable {opA opB : Byte} {s t : State}

/-- A stub with the policy at its value, no-op (`43_data_io_system.md` R197, R198). -/
@[simp] theorem stub_eq (m : Mnemonic) (opA opB : Byte) (s : State) : stub m opA opB s = .next (s.advance m) := rfl

theorem execCmp_next (h : execCmp opA opB s = .next t) :
    ((reg? opA = none ∨ reg? opB = none) ∧ t = raise .badRegister (opcodeOf .cmp) opA opB s) ∨
      ∃ a b, reg? opA = some a ∧ reg? opB = some b ∧
        t = (s.setFl (cmpFlags (s.reg a) (s.reg b))).advance .cmp := by
  rcases withRegs_next h with h | ⟨a, b, ha, hb, h⟩
  · exact .inl h
  · exact .inr ⟨a, b, ha, hb, by simpa [eq_comm] using h⟩

theorem execLd_next (h : execLd opA opB s = .next t) :
    ((reg? opA = none ∨ reg? opB = none) ∧ t = raise .badRegister (opcodeOf .ld) opA opB s) ∨
      ∃ a b, reg? opA = some a ∧ reg? opB = some b ∧ t = (s.setReg a (s.memRead (s.reg b))).advance .ld := by
  rcases withRegs_next h with h | ⟨a, b, ha, hb, h⟩
  · exact .inl h
  · exact .inr ⟨a, b, ha, hb, by simpa [eq_comm] using h⟩

theorem execSt_next (h : execSt opA opB s = .next t) :
    ((reg? opA = none ∨ reg? opB = none) ∧ t = raise .badRegister (opcodeOf .st) opA opB s) ∨
      ∃ a b, reg? opA = some a ∧ reg? opB = some b ∧ t = (s.memWrite (s.reg a) (s.reg b)).advance .st := by
  rcases withRegs_next h with h | ⟨a, b, ha, hb, h⟩
  · exact .inl h
  · exact .inr ⟨a, b, ha, hb, by simpa [eq_comm] using h⟩

theorem execLdi_next (h : execLdi opA opB s = .next t) :
    (reg? opA = none ∧ t = raise .badRegister (opcodeOf .ldi) opA opB s) ∨
      ∃ a, reg? opA = some a ∧ t = (s.setReg a opB).advance .ldi := by
  rcases withReg_next h with h | ⟨a, ha, h⟩
  · exact .inl h
  · exact .inr ⟨a, ha, by simpa [eq_comm] using h⟩

theorem execPrn_next (h : execPrn opA s = .next t) :
    (reg? opA = none ∧ t = raise .badRegister (opcodeOf .prn) opA s.fetchB s) ∨
      ∃ a, reg? opA = some a ∧ t = (s.emit .int (s.reg a)).advance .prn := by
  rcases withReg_next h with h | ⟨a, ha, h⟩
  · exact .inl h
  · exact .inr ⟨a, ha, by simpa [eq_comm] using h⟩

theorem execPra_next (h : execPra opA s = .next t) :
    (reg? opA = none ∧ t = raise .badRegister (opcodeOf .pra) opA s.fetchB s) ∨
      ∃ a, reg? opA = some a ∧ t = (s.emit .char (s.reg a)).advance .pra := by
  rcases withReg_next h with h | ⟨a, ha, h⟩
  · exact .inl h
  · exact .inr ⟨a, ha, by simpa [eq_comm] using h⟩

theorem execPush_next (h : execPush opA s = .next t) :
    (reg? opA = none ∧ t = raise .badRegister (opcodeOf .push) opA s.fetchB s) ∨
      ∃ a, reg? opA = some a ∧ t = (s.pushWith fun u => u.reg a).advance .push := by
  rcases withReg_next h with h | ⟨a, ha, h⟩
  · exact .inl h
  · exact .inr ⟨a, ha, by simpa [eq_comm] using h⟩

theorem execPop_next (h : execPop opA s = .next t) :
    (reg? opA = none ∧ t = raise .badRegister (opcodeOf .pop) opA s.fetchB s) ∨
      ∃ a, reg? opA = some a ∧ t = ((s.setReg a (s.memRead s.sp)).incSp).advance .pop := by
  rcases withReg_next h with h | ⟨a, ha, h⟩
  · exact .inl h
  · exact .inr ⟨a, ha, by simpa [eq_comm] using h⟩

theorem execCall_next (h : execCall opA s = .next t) :
    (reg? opA = none ∧ t = raise .badRegister (opcodeOf .call) opA s.fetchB s) ∨
      ∃ a, reg? opA = some a ∧
        t = (s.pushWith fun _ => s.pc + 2).setPc ((s.pushWith fun _ => s.pc + 2).reg a) := by
  rcases withReg_next h with h | ⟨a, ha, h⟩
  · exact .inl h
  · exact .inr ⟨a, ha, by simpa [eq_comm] using h⟩

/-- What the fetch decodes is what the decoder reads from the three fetched bytes. -/
theorem State.fetchDecode_eq_ok_iff (s : State) (i : Instr) :
    s.fetchDecode = .ok i ↔ ∃ rest, decode s.fetchBytes = .ok (i, rest) := by
  unfold State.fetchDecode
  cases h : decode s.fetchBytes with
  | error e => simp
  | ok p => obtain ⟨j, rest⟩ := p; simp

end Sys2Proof.Machine
end

