-- ==== Sys2Proof/Laws/Flags.lean ====
section
/-! SUPPORT. The flags byte CMP writes. -/

namespace Sys2Proof.Machine

/-- The byte CMP writes, by the unsigned order of its operands (`41_alu.md` R154). -/
theorem cmpFlags_eq (u v : Byte) :
    cmpFlags u v = if u = v then 0x01 else if u.toNat < v.toNat then 0x02 else 0x04 := by
  unfold cmpFlags
  by_cases h : u = v
  · subst h
    simp [packFlags, bitAt, flEBit, BitVec.ult]
  · have hne : u.toNat ≠ v.toNat := fun e => h (BitVec.eq_of_toNat_eq e)
    by_cases hlt : u.toNat < v.toNat
    · have hge : ¬v.toNat < u.toNat := by omega
      simp [packFlags, bitAt, flLBit, BitVec.ult, h, hlt, hge]
    · have hgt : v.toNat < u.toNat := by omega
      simp [packFlags, bitAt, flGBit, BitVec.ult, h, hlt, hgt]

/-- The flags read of a byte are its bits 0, 1 and 2 (`10_state.md` R29). -/
theorem State.flags_eq_testBit (s : State) :
    s.flagE = s.fl.toNat.testBit 0 ∧ s.flagL = s.fl.toNat.testBit 1 ∧ s.flagG = s.fl.toNat.testBit 2 :=
  ⟨rfl, rfl, rfl⟩

end Sys2Proof.Machine
end

