-- ==== Sys2Proof/Laws/Stack.lean ====
section
/-! SUPPORT. The push: the cell it writes and the cells it leaves (`42_control_stack.md` R180). -/

namespace Sys2Proof.Machine

/-- The pushed byte is read back at the decremented stack pointer. -/
theorem State.memRead_pushWith_same {s : State} (h : s.mem.wf = true) (v : State → Byte) :
    (s.pushWith v).memRead (s.sp - 1) = v s.decSp := by
  have hw := State.memRead_memWrite_same (s := s.decSp) h s.decSp.sp (v s.decSp)
  simpa [State.pushWith] using hw

/-- Every other cell reads as before. -/
theorem State.memRead_pushWith_other (s : State) (v : State → Byte) {c : Byte} (hc : c ≠ s.sp - 1) :
    (s.pushWith v).memRead c = s.memRead c := by
  have hw := State.memRead_memWrite_other s.decSp (a := s.decSp.sp) (c := c) (v s.decSp) (by simpa using hc)
  simpa [State.pushWith] using hw

/-- The decrement of the stack pointer as a number (`20_memory.md` R53). -/
theorem toNat_sub_one (x : Byte) : (x - 1).toNat = (x.toNat + 255) % 256 := by
  simp [BitVec.toNat_sub]
  omega

end Sys2Proof.Machine
end

