-- ==== Sys2Proof/Tests/Slice0.lean ====
section
/-! SUPPORT. The model's own tests. Expected results are those of spec/: the encodings of `30_encoding.md` R86
and the derived vectors V1 to V9 of `95_test_vectors.md`, one step each; then a witness for every statement
that has hypotheses. -/

namespace Sys2Proof.Tests

open Sys2Proof Sys2Proof.Machine

/-! ### Well-formedness: an operand byte above 7 is refused, in each position that names a register -/

theorem test_illFormed_one : (Instr.push 8).wellFormed = false := by decide
theorem test_illFormed_operandA : (Instr.add 9 0).wellFormed = false := by decide
theorem test_illFormed_operandB : (Instr.st 0 0xFF).wellFormed = false := by decide
theorem test_illFormed_ldi : (Instr.ldi 8 5).wellFormed = false := by decide
theorem test_wellFormed_unchecked : (Instr.int 0xFF).wellFormed = true ∧ (Instr.ldi 7 0xFF).wellFormed = true := by decide

/-! ### Decoding: each constructor from bytes written out from the map and the formats -/

theorem test_decode_f0 : decode [0b00000000] = .ok (.nop, []) ∧ decode [0b00000001] = .ok (.hlt, []) ∧
    decode [0b00010001] = .ok (.ret, []) ∧ decode [0b00010011] = .ok (.iret, []) := ⟨rfl, rfl, rfl, rfl⟩

theorem test_decode_stack : decode [0b01000101, 3] = .ok (.push 3, []) ∧ decode [0b01000110, 4] = .ok (.pop 4, []) ∧
    decode [0b01010000, 1] = .ok (.call 1, []) := ⟨rfl, rfl, rfl⟩

theorem test_decode_jumps : decode [0b01010100, 2] = .ok (.jmp 2, []) ∧ decode [0b01010101, 2] = .ok (.jeq 2, []) ∧
    decode [0b01010110, 2] = .ok (.jne 2, []) ∧ decode [0b01010111, 2] = .ok (.jgt 2, []) ∧
    decode [0b01011000, 2] = .ok (.jlt 2, []) := ⟨rfl, rfl, rfl, rfl, rfl⟩

theorem test_decode_output_system : decode [0b01000111, 5] = .ok (.prn 5, []) ∧
    decode [0b01001000, 6] = .ok (.pra 6, []) ∧ decode [0b01010010, 0xFF] = .ok (.int 0xFF, []) := ⟨rfl, rfl, rfl⟩

theorem test_decode_alu_one : decode [0b01100101, 2] = .ok (.inc 2, []) ∧ decode [0b01100110, 2] = .ok (.dec 2, []) ∧
    decode [0b01101001, 3] = .ok (.not 3, []) := ⟨rfl, rfl, rfl⟩

theorem test_decode_data : decode [0b10000010, 3, 0xFF] = .ok (.ldi 3 0xFF, []) ∧
    decode [0b10000011, 2, 0] = .ok (.ld 2 0, []) ∧ decode [0b10000100, 0, 1] = .ok (.st 0 1, []) := ⟨rfl, rfl, rfl⟩

theorem test_decode_alu_arith : decode [0b10100000, 0, 1] = .ok (.add 0 1, []) ∧
    decode [0b10100001, 0, 1] = .ok (.sub 0 1, []) ∧ decode [0b10100010, 0, 1] = .ok (.mul 0 1, []) ∧
    decode [0b10100011, 0, 1] = .ok (.div 0 1, []) ∧ decode [0b10100100, 0, 1] = .ok (.mod 0 1, []) ∧
    decode [0b10100111, 0, 1] = .ok (.cmp 0 1, []) := ⟨rfl, rfl, rfl, rfl, rfl, rfl⟩

theorem test_decode_alu_logic : decode [0b10101000, 0, 1] = .ok (.and 0 1, []) ∧
    decode [0b10101010, 0, 1] = .ok (.or 0 1, []) ∧ decode [0b10101011, 0, 1] = .ok (.xor 0 1, []) ∧
    decode [0b10101100, 0, 1] = .ok (.shl 0 1, []) ∧ decode [0b10101101, 0, 1] = .ok (.shr 0 1, []) :=
  ⟨rfl, rfl, rfl, rfl, rfl⟩

/-- V9: the gaps of the map, JGE and JLE of the LS-8 convention among them. -/
theorem test_decode_unknown : decode [0xFF] = .error (.unknownInstruction 0xFF) ∧
    decode [0x02] = .error (.unknownInstruction 0x02) ∧ decode [0x5A, 0] = .error (.unknownInstruction 0x5A) ∧
    decode [0x59, 0] = .error (.unknownInstruction 0x59) ∧ decode [0xA9, 0, 1] = .error (.unknownInstruction 0xA9) :=
  ⟨rfl, rfl, rfl, rfl, rfl⟩

theorem test_tableWord_bit_order : decodeTableWord 24 0x0100A3 = some (.div 0 1) ∧ decodeTableWord 8 0xFF13 = some .iret :=
  ⟨rfl, rfl⟩

/-! ### One step of each instruction -/

/-- The state a meaning or a step answers, when it answers one. -/
def next? : Result → Option State
  | .next t => some t
  | .fault _ => none
  | .refused _ => none

/-- The image loaded after reset, with values in x[0] and x[1]. -/
def booted (image : List Byte) (x0 x1 : Byte) : State := ((bootState image).setReg 0 x0).setReg 1 x1

/-- What is observed of the state one step later. -/
def seen {α : Type} (s : State) (f : State → α) : Option α := (next? (step s)).map f

-- V1
theorem test_add_wraps : seen (booted [0xA0, 0, 1] 0xC8 0x64) (fun t => (t.reg 0, t.pc, t.fl)) = some (0x2C, 3, 0) := by decide
theorem test_add_same_register : seen (booted [0xA0, 0, 0] 0x80 0) (fun t => t.reg 0) = some 0x00 := by decide
theorem test_sub_wraps : seen (booted [0xA1, 0, 1] 0x05 0x0A) (fun t => (t.reg 0, t.reg 1)) = some (0xFB, 0x0A) := by decide
theorem test_mul_low_byte : seen (booted [0xA2, 0, 1] 0xC8 0x03) (fun t => (t.reg 0, t.pc)) = some (0x58, 3) := by decide
-- V2
theorem test_div_floor : seen (booted [0xA3, 0, 1] 0x64 0x07) (fun t => (t.reg 0, t.pc)) = some (0x0E, 3) := by decide
theorem test_div_by_zero :
    seen (booted [0xA3, 0, 1] 0x09 0) (fun t => (t.status, errNumber t.err, t.reg 0, t.pc)) = some (.halted, 1, 0x09, 0x00) ∧
    seen (booted [0xA3, 0, 1] 0x09 0) (fun t => (t.errPc, t.errIr, t.errOpA, t.errOpB)) = some (0x00, 0xA3, 0x00, 0x01) := by
  decide
theorem test_mod : seen (booted [0xA4, 0, 1] 0xFF 0x10) (fun t => (t.reg 0, t.pc)) = some (0x0F, 3) := by decide
theorem test_mod_by_zero : seen (booted [0xA4, 0, 1] 0x09 0) (fun t => (errNumber t.err, t.errIr, t.reg 0)) =
    some (1, 0xA4, 0x09) := by decide
-- V3
theorem test_inc_wraps : seen (booted [0x65, 0] 0xFF 0) (fun t => (t.reg 0, t.pc)) = some (0x00, 2) := by decide
theorem test_inc_stack_pointer : seen (booted [0x65, 7] 0 0) (fun t => t.reg 7) = some 0xF5 := by decide
theorem test_dec_wraps : seen (booted [0x66, 0] 0 0) (fun t => (t.reg 0, t.fl)) = some (0xFF, 0) := by decide
theorem test_not : seen (booted [0x69, 0] 0xA5 0) (fun t => (t.reg 0, t.pc)) = some (0x5A, 2) := by decide
theorem test_and : seen (booted [0xA8, 0, 1] 0xF0 0x3C) (fun t => t.reg 0) = some 0x30 := by decide
theorem test_or : seen (booted [0xAA, 0, 1] 0xF0 0x3C) (fun t => t.reg 0) = some 0xFC := by decide
theorem test_xor : seen (booted [0xAB, 0, 1] 0xF0 0x3C) (fun t => t.reg 0) = some 0xCC := by decide
-- V4
theorem test_shl_drops_bit7 : seen (booted [0xAC, 0, 1] 0x81 0x01) (fun t => t.reg 0) = some 0x02 := by decide
theorem test_shl_not_masked : seen (booted [0xAC, 0, 1] 0xFF 0x08) (fun t => t.reg 0) = some 0x00 := by decide
theorem test_shr_logical : seen (booted [0xAD, 0, 1] 0x80 0x07) (fun t => t.reg 0) = some 0x01 := by decide
theorem test_shr_not_masked : seen (booted [0xAD, 0, 1] 0xFF 0xC8) (fun t => t.reg 0) = some 0x00 := by decide
-- V5
theorem test_cmp_unsigned : seen (booted [0xA7, 0, 1] 0x80 0x7F) (fun t => (t.fl, t.reg 0)) = some (0x04, 0x80) := by decide
theorem test_cmp_clears_older : seen ((booted [0xA7, 0, 1] 0x00 0xFF).setFl 0x04) (fun t => t.fl) = some 0x02 := by decide

/-- The instruction at 0x10 with x[2] = 0x20 and the given flags, as in V6. -/
def jumping (op f : Byte) : State := (((bootState []).loadFrom 0x10 [op, 2]).setReg 2 0x20 |>.setPc 0x10).setFl f

-- V6
theorem test_jmp : seen (jumping 0x54 0x00) (fun t => t.pc) = some 0x20 := by decide
theorem test_jeq : seen (jumping 0x55 0x01) (fun t => t.pc) = some 0x20 ∧ seen (jumping 0x55 0x04) (fun t => t.pc) = some 0x12 := by decide
theorem test_jne : seen (jumping 0x56 0x00) (fun t => t.pc) = some 0x20 ∧ seen (jumping 0x56 0x01) (fun t => t.pc) = some 0x12 := by decide
theorem test_jlt : seen (jumping 0x58 0x02) (fun t => t.pc) = some 0x20 ∧ seen (jumping 0x58 0x04) (fun t => t.pc) = some 0x12 := by decide
theorem test_jgt : seen (jumping 0x57 0x04) (fun t => t.pc) = some 0x20 ∧ seen (jumping 0x57 0x02) (fun t => t.pc) = some 0x12 := by decide
theorem test_jeq_bad_register : seen ((bootState []).loadFrom 0x10 [0x55, 9] |>.setPc 0x10)
    (fun t => (t.pc, t.status, errNumber t.err)) = some (0x10, .halted, 3) := by decide

-- V7
theorem test_push : seen (booted [0x45, 0] 0x0A 0) (fun t => (t.reg 7, t.memRead 0xF3, t.pc)) = some (0xF3, 0x0A, 2) := by decide
theorem test_push_r7 : seen (booted [0x45, 7] 0 0) (fun t => (t.reg 7, t.memRead 0xF3)) = some (0xF3, 0xF3) := by decide
theorem test_pop_wraps : seen ((booted [0x46, 1] 0 0).setReg 7 0xFF |>.memWrite 0xFF 0xAB)
    (fun t => (t.reg 1, t.reg 7)) = some (0xAB, 0x00) := by decide
theorem test_pop_r7 : seen ((booted [0x46, 7] 0 0).memWrite 0xF4 0x20) (fun t => (t.reg 7, t.pc)) = some (0x21, 2) := by decide
theorem test_call_wraps : seen ((bootState []).loadFrom 0xFE [0x50, 1] |>.setReg 1 0x40 |>.setPc 0xFE)
    (fun t => (t.reg 7, t.memRead 0xF3, t.pc)) = some (0xF3, 0x00, 0x40) := by decide
theorem test_call_r7 : seen (booted [0x50, 7] 0 0) (fun t => (t.reg 7, t.memRead 0xF3, t.pc)) = some (0xF3, 0x02, 0xF3) := by decide
theorem test_ret : seen (((bootState []).loadByteAt 0x17 0x11).setReg 7 0xF3 |>.memWrite 0xF3 0x08 |>.setPc 0x17)
    (fun t => (t.reg 7, t.pc)) = some (0xF4, 0x08) := by decide
theorem test_ret_empty_stack : seen (booted [0x11] 0 0) (fun t => (t.reg 7, t.pc)) = some (0xF5, 0x00) := by decide

-- V8
theorem test_ldi : seen (booted [0x82, 3, 0xFF] 0 0) (fun t => (t.reg 3, t.pc)) = some (0xFF, 3) := by decide
theorem test_ldi_straddles_top : seen ((bootState []).loadFrom 0xFE [0x82, 0x03, 0x2A] |>.setPc 0xFE)
    (fun t => (t.reg 3, t.pc)) = some (0x2A, 0x01) := by decide
theorem test_ld_own_opcode : seen (booted [0x83, 2, 0] 0x00 0) (fun t => (t.reg 2, t.pc)) = some (0x83, 3) := by decide
theorem test_st_address_first : seen (booted [0x84, 0, 1] 0x80 0x48) (fun t => (t.memRead 0x80, t.pc)) = some (0x48, 3) := by decide
theorem test_st_own_opcode : seen (booted [0x84, 0, 1] 0x00 0x01) (fun t => (t.memRead 0x00, t.pc)) = some (0x01, 3) := by decide
theorem test_prn : seen (booted [0x47, 0] 0xFF 0) (fun t => (t.out, t.pc)) = some ([{ kind := .int, value := 0xFF }], 2) := by decide
theorem test_pra : seen (booted [0x48, 1] 0 0x48) (fun t => (t.out, t.pc)) = some ([{ kind := .char, value := 0x48 }], 2) := by decide
theorem test_render : renderEvent { kind := .int, value := 0xFF } = [.char 0x32, .char 0x35, .char 0x35, .lineBreak] ∧
    renderEvent { kind := .char, value := 0x48 } = [.char 0x48] := by decide
theorem test_nop : seen (booted [0x00] 0 0) (fun t => (t.pc, t.status)) = some (1, .running) := by decide
theorem test_hlt_wraps : seen ((bootState []).loadByteAt 0xFF 0x01 |>.setPc 0xFF)
    (fun t => (t.pc, t.status, errNumber t.err)) = some (0x00, .halted, 0) := by decide
theorem test_int_unchecked : seen (booted [0x52, 0xFF] 0 0) (fun t => (t.pc, t.status, t.reg 7)) = some (2, .running, 0xF4) := by decide
theorem test_iret_pops_nothing : seen (booted [0x13] 0 0) (fun t => (t.pc, t.reg 7)) = some (1, 0xF4) := by decide

-- V9
theorem test_unknown : seen (booted [0x5A, 0x00] 0 0) (fun t => (t.status, errNumber t.err, t.errIr, t.pc)) =
    some (.halted, 2, 0x5A, 0) := by decide
theorem test_bad_register_first : seen (booted [0xA3, 9, 1] 0 0) (fun t => (errNumber t.err, t.errIr, t.errOpA, t.errOpB)) =
    some (3, 0xA3, 0x09, 0x01) := by decide
theorem test_bad_register_operandB : seen (booted [0xA0, 0, 8] 0 0) (fun t => (errNumber t.err, t.errOpB, t.reg 0)) =
    some (3, 0x08, 0x00) := by decide
theorem test_bad_register_latches_overread : seen (booted [0x45, 8, 0x77] 0 0)
    (fun t => (errNumber t.err, t.errOpA, t.errOpB, t.reg 7)) = some (3, 0x08, 0x77, 0xF4) := by decide
theorem test_placed_word_runs_in_halted : seen (State.reset.halt.withFetchWord 16 0xFF0065) (fun t => (t.reg 0, t.pc)) =
    some (1, 2) := by decide

/-! ### Witnesses: a concrete state and operands that meet the hypotheses of each statement -/

theorem witness_UndefinedOpcodesAreFatal :
    (bootState [0xFF]).status = .running ∧ (bootState [0xFF]).fetchIr ∉ definedOpcodes := by decide

theorem witness_StepRunsDecodedInstruction :
    (bootState [0xA0]).status = .running ∧ decode (bootState [0xA0, 1, 2]).fetchBytes = .ok (.add 1 2, []) ∧
    decode (bootState [0xFF]).fetchBytes = .error (.unknownInstruction 0xFF) := ⟨rfl, rfl, rfl⟩

theorem witness_StepRunsEncodedInstruction : (bootState [0x65, 2]).status = .running ∧
    ∀ k b, (encode (.inc 2))[k]? = some b → (bootState [0x65, 2]).memRead ((bootState [0x65, 2]).pc + BitVec.ofNat 8 k) = b := by
  refine ⟨rfl, fun k b h => ?_⟩
  match k with
  | 0 => exact Option.some.inj (h ▸ rfl)
  | 1 => exact Option.some.inj (h ▸ rfl)
  | k + 2 => simp [encode, Instr.operandBytes] at h

theorem witness_HaltedStepChangesNothing : State.reset.halt.status = .halted := rfl

/-- The bytes above 7 of every BadRegister clause: the lowest and the highest. -/
theorem witness_badRegisterOperand : 7 < (8 : Byte).toNat ∧ 7 < (0xFF : Byte).toNat := by decide

theorem witness_DivModAndZeroDivisor : (booted [] 9 1).reg 1 ≠ 0 ∧ (booted [] 9 0).reg 1 = 0 := by decide

theorem witness_ShiftsByWholeCount : 8 ≤ ((booted [] 0xFF 8).reg 1).toNat ∧ 8 ≤ ((booted [] 0xFF 0xFF).reg 1).toNat := by decide

theorem witness_JeqJneTestEqual : (State.reset.setFl 0x01).fl.toNat.testBit 0 = true ∧
    State.reset.fl.toNat.testBit 0 = false := by decide

theorem witness_JltJgtTestOrder : (State.reset.setFl 0x02).fl.toNat.testBit 1 = true ∧
    (State.reset.setFl 0x04).fl.toNat.testBit 2 = true ∧
    State.reset.fl.toNat.testBit 1 = false ∧ State.reset.fl.toNat.testBit 2 = false := by decide

/-- The memory premise of CALL, PUSH, ST and of the memory laws, of a memory that lists cells. -/
theorem witness_canonicalMemory : (bootState [0x45, 0x00, 0x77]).mem = [(0, 0x45), (2, 0x77)] ∧
    (bootState [0x45, 0x00, 0x77]).mem.wf = true := by decide

theorem witness_PopLoadsThenIncrements : (0 : RegIdx) ≠ 7 ∧ (7 : RegIdx) = 7 := by decide

theorem witness_PushesDescendFromStackPointer : State.reset.mem.wf = true ∧ (List.replicate 256 (7 : RegIdx)).length ≤ 256 ∧
    ([0, 7] : List RegIdx)[1]? = some 7 := ⟨rfl, Nat.le_of_eq List.length_replicate, rfl⟩

theorem witness_PopsUndoPushes : (booted [] 0xAB 0xCD).mem.wf = true ∧ ([0, 1, 7, 0] : List RegIdx).length ≤ 256 := by decide

theorem witness_RetReturnsPastCall : ∃ t, State.reset.mem.wf = true ∧
    exec (.call (regByte 1)) State.reset = .next t ∧ t.reg 7 = t.reg 7 ∧ t.memRead (t.reg 7) = t.memRead (t.reg 7) :=
  ⟨_, rfl, rfl, rfl, rfl⟩

theorem witness_FatalErrorsArePrecise : ∃ t u, (bootState [0xFF]).status = .running ∧ (bootState [0xFF]).err = .noError ∧
    step (bootState [0xFF]) = .next t ∧ t.err ≠ .noError ∧ step (bootState [0x00]) = .next u ∧ u.err = .noError :=
  ⟨_, _, rfl, rfl, rfl, by decide, rfl, rfl⟩

theorem witness_FatalErrorCausesAndPriority : ∃ t u v, step (bootState [0xFF]) = .next t ∧ t.err = .unknownInstruction ∧
    step (bootState [0xA3, 9, 1]) = .next u ∧ u.err = .badRegister ∧
    step (bootState [0xA3, 7, 1]) = .next v ∧ v.err = .divideByZero :=
  ⟨_, _, _, rfl, rfl, rfl, rfl, rfl, rfl⟩

theorem witness_OnlyCmpWritesFlags : ∃ t u v, exec (.dec 0) State.reset = .next t ∧ (∀ a b, Instr.dec 0 ≠ .cmp a b) ∧
    step (bootState [0x66, 0]) = .next u ∧ (bootState [0x66, 0]).fetchIr ≠ 0xA7 ∧ isConditionalJump (.dec 0) = false ∧
    exec (.jeq 2) State.reset = .next v ∧ isConditionalJump (.jeq 2) = true :=
  ⟨_, _, _, rfl, by simp, rfl, by decide, rfl, rfl, rfl⟩

theorem witness_OnlyHltAndErrorsHalt : ∃ t u, exec .hlt State.reset = .next t ∧
    step (bootState [0x00]) = .next u ∧ u.status = .running := ⟨_, _, rfl, rfl, rfl⟩

/-- An instruction of each case of the pc: an error, a transfer, an advance. -/
theorem witness_PcTransfersOrAdvances : ∃ t u v, exec (.jmp 8) State.reset = .next t ∧ exec (.jmp 7) State.reset = .next u ∧
    exec (.jeq 7) State.reset = .next v := ⟨_, _, _, rfl, rfl, rfl⟩

theorem witness_RegistersChangeOnlyAtDestinations : ∃ t, exec (.pop 2) State.reset = .next t := ⟨_, rfl⟩

theorem witness_MemoryChangesOnlyWhereStored : ∃ t u, exec (.push 0) State.reset = .next t ∧
    stored (.push 0) State.reset = some (0xF3, 0) ∧ State.reset.mem.wf = true ∧
    exec (.cmp 0 1) State.reset = .next u ∧ stored (.cmp 0 1) State.reset = none :=
  ⟨_, _, rfl, by decide, rfl, rfl, rfl⟩

/-- ST of the byte 0x01 (HLT) at the next instruction's address, 3: program P7's case. -/
theorem witness_StoreSeenByNextFetch : ∃ t, (booted [] 3 1).mem.wf = true ∧ exec (.st 0 1) (booted [] 3 1) = .next t ∧
    stored (.st 0 1) (booted [] 3 1) = some (3, 1) ∧ t.pc = 3 ∧ t.status = .running :=
  ⟨_, rfl, rfl, by decide, by decide, rfl⟩

/-- ST at the two operand addresses of the next instruction. -/
theorem witness_StoreSeenByNextFetch_operands : ∃ t u, exec (.st 0 1) (booted [] 4 1) = .next t ∧ t.pc + 1 = 4 ∧
    exec (.st 0 1) (booted [] 5 1) = .next u ∧ u.pc + 2 = 5 := ⟨_, _, rfl, by decide, rfl, by decide⟩

theorem witness_EqualReadsEqualMemories : Memory.wf [(3, 0x01)] = true ∧
    ∀ a : Byte, Memory.read [(3, 0x01)] a.toNat = Memory.read [(3, 0x01)] a.toNat := ⟨rfl, fun _ => rfl⟩

theorem witness_BootPlacesImage : (List.replicate 256 (0x45 : Byte)).length ≤ 256 :=
  Nat.le_of_eq List.length_replicate

theorem witness_RunIsIteratedStep : ∃ t, runFor 1 (bootState [0x01]) = .next t ∧ t.status = .halted := ⟨_, rfl, rfl⟩

/-- The invariant holds of a state that lists memory and has its flags set, and that state steps. -/
theorem witness_StepKeepsInvariant : ∃ t, Inv ((bootState [0x66, 0x00]).setFl 0x02) ∧
    step ((bootState [0x66, 0x00]).setFl 0x02) = .next t :=
  ⟨_, ⟨rfl, .inr (.inr (.inl rfl)), fun h => absurd rfl h, fun h => absurd rfl h, rfl, rfl, rfl, rfl⟩, rfl⟩

/-- The invariant also holds of a state that a fatal error has halted: its error clauses are met, not void. -/
theorem witness_StepKeepsInvariant_error : ∃ t, step (bootState [0xFF]) = .next t ∧ t.err ≠ .noError ∧ Inv t :=
  ⟨_, rfl, by decide, ⟨rfl, .inl rfl, fun _ => rfl, fun _ => ⟨rfl, rfl, rfl, rfl⟩, (by decide : (0xFF : Byte) ∉ definedOpcodes)⟩⟩

end Sys2Proof.Tests
end

/-! What `exec` does to a state, said once for all 32 instructions. The effect of an instruction is a function
of states that depends only on the registers, the memory and the pc, and for a conditional jump on `FL`; so
one theorem, `exec_effect`, gives both what an instruction changes and what it does not read. -/

namespace Sys2Proof.Machine

/-- A state with other flags, run state and output: the parts an effect is not computed from. -/
def State.withUnread (s : State) (f : Byte) (r : RunStatus) (o : List OutEvent) : State :=
  { s with fl := f, status := r, out := o }

/-- Operand A as a fatal error of the instruction records it: its own byte, or the byte fetched there. -/
def latchA (i : Instr) (s : State) : Byte := i.operandBytes.getD 0 s.fetchA

/-- Operand B as a fatal error of the instruction records it: its own byte, or the byte fetched there. -/
def latchB (i : Instr) (s : State) : Byte := i.operandBytes.getD 1 s.fetchB

/-- The pc after an instruction that completes (`10_state.md` R27, `40_step_cycle.md` R120). -/
def nextPc (i : Instr) (s : State) : PcWord :=
  (transferTarget i s).getD (s.pc + BitVec.ofNat 8 (widthOf i.mnemonic))

/-- What an instruction that completes does besides setting the pc, as a function of the state, with the
values it reads in `s`. -/
inductive Body (i : Instr) (s : State) : (State → State) → Prop
  | skip (hi : i ≠ .hlt) (hst : stored i s = none) : Body i s id
  | setReg {d : RegIdx} {v : Byte} (hd : d ∈ destRegs i) (hst : stored i s = none) :
      Body i s (fun u => u.setReg d v)
  | setFl {a b f : Byte} (hi : i = .cmp a b) (hf : LegalFlags f) : Body i s (fun u => u.setFl f)
  | memWrite {a v : Byte} (hst : stored i s = some (a, v)) : Body i s (fun u => u.memWrite a v)
  | prn {a v : Byte} (hi : i = .prn a) : Body i s (fun u => u.emit .int v)
  | pra {a v : Byte} (hi : i = .pra a) : Body i s (fun u => u.emit .char v)
  | halt (hi : i = .hlt) : Body i s State.halt
  | push {v : Byte} (hsp : Config.spIndex ∈ destRegs i) (hst : stored i s = some (s.decSp.sp, v)) :
      Body i s (fun u => u.pushWith fun _ => v)
  | pop {d : RegIdx} {v : Byte} (hd : d ∈ destRegs i) (hsp : Config.spIndex ∈ destRegs i)
      (hst : stored i s = none) : Body i s (fun u => (u.setReg d v).incSp)
  | ret (hsp : Config.spIndex ∈ destRegs i) (hst : stored i s = none) : Body i s State.incSp

/-- What an instruction does: one of the two fatal errors an instruction can raise, or its body and the pc. -/
inductive Effect (i : Instr) (s : State) : (State → State) → Prop
  | badRegister (hi : i.wellFormed = false) :
      Effect i s (raise .badRegister (opcodeOf i.mnemonic) (latchA i s) (latchB i s))
  | divideByZero {a b : RegIdx} (hi : i.mnemonic = .div ∨ i.mnemonic = .mod)
      (ha : reg? (latchA i s) = some a) (hb : reg? (latchB i s) = some b) (h0 : s.reg b = 0) :
      Effect i s (raise .divideByZero (opcodeOf i.mnemonic) (latchA i s) (latchB i s))
  | completes {body : State → State} (hbody : Body i s body) :
      Effect i s (fun u => (body u).setPc (nextPc i s))

/-- A meaning acts by one effect on every state that differs from `s` in what the instruction does not read. -/
def HasEffect (i : Instr) (s : State) (meaning : State → Result) : Prop :=
  ∃ g, Effect i s g ∧ ∀ f r o, (isConditionalJump i = true → f = s.fl) →
    meaning (s.withUnread f r o) = .next (g (s.withUnread f r o))

/-- CMP writes 1, 2 or 4 (`41_alu.md` R154). -/
theorem cmpFlags_legal (u v : Byte) : LegalFlags (cmpFlags u v) := by
  rw [cmpFlags_eq]
  split
  · exact .inr (.inl rfl)
  · split
    · exact .inr (.inr (.inl rfl))
    · exact .inr (.inr (.inr rfl))

section Shapes

variable {i : Instr} {s : State}

/-- A meaning that completes, given its body. -/
theorem Body.hasEffect {body : State → State} {result : State → State} (hbody : Body i s body)
    (h : ∀ f r o, (isConditionalJump i = true → f = s.fl) →
      result (s.withUnread f r o) = (body (s.withUnread f r o)).setPc (nextPc i s)) :
    HasEffect i s (fun u => .next (result u)) :=
  ⟨_, .completes hbody, fun f r o hf => congrArg Host.Outcome.next (h f r o hf)⟩

theorem badRegister_hasEffect (hi : i.wellFormed = false) :
    HasEffect i s (fun u => badRegister i.mnemonic (latchA i u) (latchB i u) u) :=
  ⟨_, .badRegister hi, fun _ _ _ _ => rfl⟩

/-- The check of operand A, then the rest of the instruction. -/
theorem withReg_hasEffect {opA : Byte} {opB : State → Byte} {k : State → RegIdx → Result}
    (hk : ∀ a, reg? opA = some a → HasEffect i s (fun u => k u a))
    (hA : opA ∈ i.regOperands := by simp [Instr.regOperands])
    (hlA : ∀ u, latchA i u = opA := by intro; rfl) (hlB : ∀ u, latchB i u = opB u := by intro; rfl) :
    HasEffect i s (fun u => withReg i.mnemonic opA (opB u) u (k u)) := by
  cases ha : reg? opA with
  | none =>
    have hbad : i.wellFormed = false := by
      rw [Instr.wellFormed, List.all_eq_false]
      exact ⟨opA, hA, by simp [isRegByte_eq_isSome_reg?, ha]⟩
    simpa [withReg, ha, hlA, hlB] using badRegister_hasEffect (s := s) hbad
  | some a => simpa [withReg, ha] using hk a ha

/-- The check of both operands, then the rest of the instruction. -/
theorem withRegs_hasEffect {opA opB : Byte} {k : State → RegIdx → RegIdx → Result}
    (hk : ∀ a b, reg? opA = some a → reg? opB = some b → HasEffect i s (fun u => k u a b))
    (hi : i.regOperands = [opA, opB] := by rfl)
    (hlA : ∀ u, latchA i u = opA := by intro; rfl) (hlB : ∀ u, latchB i u = opB := by intro; rfl) :
    HasEffect i s (fun u => withRegs i.mnemonic opA opB u (k u)) := by
  refine withReg_hasEffect (opB := fun _ => opB) (fun a ha => ?_) (by simp [hi]) hlA hlB
  cases hb : reg? opB with
  | none =>
    have hbad : i.wellFormed = false := by simp [Instr.wellFormed, hi, isRegByte_eq_isSome_reg?, hb]
    simpa [hb, hlA, hlB] using badRegister_hasEffect (s := s) hbad
  | some b => simpa [hb] using hk a b ha hb

/-- A two-operand ALU instruction with a result (`41_alu.md` R140). -/
theorem aluTwo_hasEffect {opA opB : Byte} (f : Byte → Byte → Byte)
    (hi : i.regOperands = [opA, opB] := by rfl) (hd : destRegs i = (reg? opA).toList := by rfl)
    (hlA : ∀ u, latchA i u = opA := by intro; rfl) (hlB : ∀ u, latchB i u = opB := by intro; rfl)
    (hst : stored i s = none := by rfl) (htr : transferTarget i s = none := by rfl) :
    HasEffect i s (aluTwo i.mnemonic f opA opB) := by
  refine withRegs_hasEffect (fun a b ha _ =>
    Body.hasEffect (.setReg (d := a) (v := f (s.reg a) (s.reg b)) (by simp [hd, ha]) hst) fun _ _ _ _ => ?_)
    hi hlA hlB
  simp only [nextPc, htr]
  rfl

/-- A one-operand ALU instruction (`41_alu.md` R140). -/
theorem aluOne_hasEffect {opA : Byte} (f : Byte → Byte)
    (hi : i.regOperands = [opA] := by rfl) (hd : destRegs i = (reg? opA).toList := by rfl)
    (hlA : ∀ u, latchA i u = opA := by intro; rfl) (hlB : ∀ u, latchB i u = u.fetchB := by intro; rfl)
    (hst : stored i s = none := by rfl) (htr : transferTarget i s = none := by rfl) :
    HasEffect i s (aluOne i.mnemonic f opA) := by
  refine withReg_hasEffect (fun a ha =>
    Body.hasEffect (.setReg (d := a) (v := f (s.reg a)) (by simp [hd, ha]) hst) fun _ _ _ _ => ?_)
    (by simp [hi]) hlA hlB
  simp only [nextPc, htr]
  rfl

/-- DIV and MOD (`41_alu.md` R144, R145). -/
theorem aluDivide_hasEffect {opA opB : Byte} (f : Byte → Byte → Byte) (hm : i.mnemonic = .div ∨ i.mnemonic = .mod)
    (hi : i.regOperands = [opA, opB] := by rfl) (hd : destRegs i = (reg? opA).toList := by rfl)
    (hlA : ∀ u, latchA i u = opA := by intro; rfl) (hlB : ∀ u, latchB i u = opB := by intro; rfl)
    (hst : stored i s = none := by rfl) (htr : transferTarget i s = none := by rfl) :
    HasEffect i s (aluDivide i.mnemonic f opA opB) := by
  refine withRegs_hasEffect (fun a b ha hb => ?_) hi hlA hlB
  by_cases h0 : s.reg b = 0
  · refine ⟨_, .divideByZero (a := a) (b := b) hm (by simp [hlA, ha]) (by simp [hlB, hb]) h0,
      fun g r o _ => ?_⟩
    rw [hlA, hlB]
    exact if_pos h0
  · refine ⟨_, .completes (.setReg (d := a) (v := f (s.reg a) (s.reg b)) (by simp [hd, ha]) hst),
      fun g r o _ => (if_neg h0).trans ?_⟩
    simp only [nextPc, htr]
    rfl

/-- A jump, given the pc it leaves in either case (`42_control_stack.md` R171 to R175). -/
theorem jumpIf_hasEffect {opA : Byte} (taken : State → Bool)
    (htaken : ∀ f r o, (isConditionalJump i = true → f = s.fl) → taken (s.withUnread f r o) = taken s)
    (htr : transferTarget i s = if taken s then (reg? opA).map s.reg else none)
    (hi : i.regOperands = [opA] := by rfl) (hne : i ≠ .hlt := by nofun)
    (hlA : ∀ u, latchA i u = opA := by intro; rfl) (hlB : ∀ u, latchB i u = u.fetchB := by intro; rfl)
    (hst : stored i s = none := by rfl) :
    HasEffect i s (fun u => jumpIf i.mnemonic (taken u) opA u) := by
  refine withReg_hasEffect (fun a ha => Body.hasEffect (.skip hne hst) fun f r o hf => ?_) (by simp [hi]) hlA hlB
  rw [htaken f r o hf, nextPc, htr]
  cases taken s with
  | true => rw [ha]; rfl
  | false => rfl

end Shapes

/-- The effect of every instruction in every state. -/
theorem exec_effect (i : Instr) (s : State) : HasEffect i s (exec i) := by
  cases i with
  | nop => exact Body.hasEffect (.skip nofun rfl) fun _ _ _ _ => rfl
  | hlt => exact Body.hasEffect (.halt rfl) fun _ _ _ _ => rfl
  | ret => exact Body.hasEffect (.ret (by simp [destRegs]) rfl) fun _ _ _ _ => rfl
  | iret => exact Body.hasEffect (.skip nofun rfl) fun _ _ _ _ => rfl
  | int a => exact Body.hasEffect (.skip nofun rfl) fun _ _ _ _ => rfl
  | push a =>
    exact withReg_hasEffect (i := .push a) fun r hr =>
      Body.hasEffect (.push (v := s.decSp.reg r) (by simp [destRegs]) (by simp [stored, hr])) fun _ _ _ _ => rfl
  | pop a =>
    exact withReg_hasEffect (i := .pop a) fun r hr =>
      Body.hasEffect (.pop (d := r) (v := s.memRead s.sp) (by simp [destRegs, hr]) (by simp [destRegs]) rfl)
        fun _ _ _ _ => rfl
  | prn a =>
    exact withReg_hasEffect (i := .prn a) fun r _ => Body.hasEffect (.prn (v := s.reg r) rfl) fun _ _ _ _ => rfl
  | pra a =>
    exact withReg_hasEffect (i := .pra a) fun r _ => Body.hasEffect (.pra (v := s.reg r) rfl) fun _ _ _ _ => rfl
  | call a =>
    refine withReg_hasEffect (i := .call a) fun r hr =>
      Body.hasEffect (.push (v := s.pc + 2) (by simp [destRegs]) (by simp [stored, hr])) fun _ _ _ _ => ?_
    simp only [nextPc, transferTarget, hr]
    rfl
  | jmp a => exact jumpIf_hasEffect (i := .jmp a) (fun _ => true) (fun _ _ _ _ => rfl) rfl
  | jeq a => exact jumpIf_hasEffect (i := .jeq a) State.flagE (fun f _ _ hf => by rw [hf rfl]; rfl) rfl
  | jne a =>
    refine jumpIf_hasEffect (i := .jne a) (fun u => !u.flagE) (fun f _ _ hf => by rw [hf rfl]; rfl) ?_
    cases h : s.flagE <;> simp [transferTarget, h]
  | jgt a => exact jumpIf_hasEffect (i := .jgt a) State.flagG (fun f _ _ hf => by rw [hf rfl]; rfl) rfl
  | jlt a => exact jumpIf_hasEffect (i := .jlt a) State.flagL (fun f _ _ hf => by rw [hf rfl]; rfl) rfl
  | inc a => exact aluOne_hasEffect (i := .inc a) fun u => u + 1
  | dec a => exact aluOne_hasEffect (i := .dec a) fun u => u - 1
  | not a => exact aluOne_hasEffect (i := .not a) fun u => ~~~u
  | ldi a b =>
    exact withReg_hasEffect (i := .ldi a b) fun r hr =>
      Body.hasEffect (.setReg (d := r) (v := b) (by simp [destRegs, hr]) rfl) fun _ _ _ _ => rfl
  | ld a b =>
    exact withRegs_hasEffect (i := .ld a b) fun ra rb hra _ =>
      Body.hasEffect (.setReg (d := ra) (v := s.memRead (s.reg rb)) (by simp [destRegs, hra]) rfl) fun _ _ _ _ => rfl
  | st a b =>
    exact withRegs_hasEffect (i := .st a b) fun ra rb hra hrb =>
      Body.hasEffect (.memWrite (a := s.reg ra) (v := s.reg rb) (by simp [stored, hra, hrb])) fun _ _ _ _ => rfl
  | cmp a b =>
    exact withRegs_hasEffect (i := .cmp a b) fun ra rb _ _ =>
      Body.hasEffect (.setFl rfl (cmpFlags_legal (s.reg ra) (s.reg rb))) fun _ _ _ _ => rfl
  | add a b => exact aluTwo_hasEffect (i := .add a b) fun u v => u + v
  | sub a b => exact aluTwo_hasEffect (i := .sub a b) fun u v => u - v
  | mul a b => exact aluTwo_hasEffect (i := .mul a b) fun u v => u * v
  | div a b => exact aluDivide_hasEffect (i := .div a b) (fun u v => u / v) (.inl rfl)
  | mod a b => exact aluDivide_hasEffect (i := .mod a b) (fun u v => u % v) (.inr rfl)
  | and a b => exact aluTwo_hasEffect (i := .and a b) fun u v => u &&& v
  | or a b => exact aluTwo_hasEffect (i := .or a b) fun u v => u ||| v
  | xor a b => exact aluTwo_hasEffect (i := .xor a b) fun u v => u ^^^ v
  | shl a b => exact aluTwo_hasEffect (i := .shl a b) fun u v => u <<< v.toNat
  | shr a b => exact aluTwo_hasEffect (i := .shr a b) fun u v => u >>> v.toNat

end Sys2Proof.Machine

/-! What follows of every instruction's effect: what it leaves unchanged, field by field, and that it carries
another `FL`, `STATUS` or `OUT` along. -/

namespace Sys2Proof.Machine

variable {i : Instr} {s t : State}

/-! ### Frames of a body -/

/-- A body writes no register outside the instruction's destinations (`10_state.md` R23). -/
theorem Body.reg {body : State → State} (hb : Body i s body) {r : RegIdx} (hr : r ∉ destRegs i) (u : State) :
    (body u).reg r = u.reg r := by
  have other {d : RegIdx} (hd : d ∈ destRegs i) : r ≠ d := fun e => hr (e ▸ hd)
  cases hb with
  | skip | setFl | memWrite | prn | pra | halt => rfl
  | setReg hd => simp [other hd]
  | push hsp | ret hsp => simp [show r ≠ 7 from other hsp]
  | pop hd hsp => simp [other hd, show r ≠ 7 from other hsp]

theorem Body.fl {body : State → State} (hb : Body i s body) (hi : ∀ a b, i ≠ .cmp a b) (u : State) :
    (body u).fl = u.fl := by
  cases hb with
  | setFl h => exact absurd h (hi _ _)
  | skip | setReg | memWrite | prn | pra | halt | push | pop | ret => rfl

theorem Body.fl_legal {body : State → State} (hb : Body i s body) {u : State} (h : LegalFlags u.fl) :
    LegalFlags (body u).fl := by
  cases hb with
  | setFl _ hf => exact hf
  | skip | setReg | memWrite | prn | pra | halt | push | pop | ret => exact h

theorem Body.mem_wf {body : State → State} (hb : Body i s body) {u : State} (h : u.mem.wf = true) :
    (body u).mem.wf = true := by
  cases hb with
  | memWrite => exact State.memWrite_wf h _ _
  | push => exact State.pushWith_wf h _
  | skip | setReg | setFl | prn | pra | halt | pop | ret => exact h

theorem Body.errors {body : State → State} (hb : Body i s body) (u : State) : SameErrors u (body u) := by
  cases hb <;> exact ⟨rfl, rfl, rfl, rfl, rfl⟩

/-- Of the bodies, HLT's alone writes `STATUS` (`10_state.md` R33). -/
theorem Body.status {body : State → State} (hb : Body i s body) (u : State) :
    (i = .hlt ∧ (body u).status = .halted) ∨ (i ≠ .hlt ∧ (body u).status = u.status) := by
  cases hb with
  | halt hi => exact .inl ⟨hi, rfl⟩
  | skip hi => exact .inr ⟨hi, rfl⟩
  | setReg hd | pop hd | push hd | ret hd => exact .inr ⟨by rintro rfl; simp [destRegs] at hd, rfl⟩
  | memWrite hst => exact .inr ⟨by rintro rfl; simp [stored] at hst, rfl⟩
  | setFl hi | prn hi | pra hi => exact .inr ⟨by simp [hi], rfl⟩

/-! ### What an effect does not read -/

/-- Another `FL` is overwritten or carried along. -/
theorem Effect.setFl {g : State → State} (hg : Effect i s g) (u : State) (f : Byte) :
    g (u.setFl f) = g u ∨ g (u.setFl f) = (g u).setFl f := by
  cases hg with
  | badRegister | divideByZero => exact .inr rfl
  | completes hb =>
    cases hb with
    | setFl => exact .inl rfl
    | skip | setReg | memWrite | prn | pra | halt | push | pop | ret => exact .inr rfl

/-- Another `STATUS` is overwritten or carried along. -/
theorem Effect.withStatus {g : State → State} (hg : Effect i s g) (u : State) (r : RunStatus) :
    g { u with status := r } = g u ∨ g { u with status := r } = { g u with status := r } := by
  cases hg with
  | badRegister | divideByZero => exact .inl rfl
  | completes hb =>
    cases hb with
    | halt => exact .inl rfl
    | skip | setReg | setFl | memWrite | prn | pra | push | pop | ret => exact .inr rfl

/-- At most one event: PRN's where `prn`, PRA's where `pra`. -/
def OneEventOf (prn pra : Prop) (new : List OutEvent) : Prop :=
  new.length ≤ 1 ∧ ((∃ v, new = [{ kind := .int, value := v }]) → prn) ∧
    ((∃ v, new = [{ kind := .char, value := v }]) → pra)

theorem oneEventOf_nil (prn pra : Prop) : OneEventOf prn pra [] := by simp [OneEventOf]

/-- Any output is carried along, with at most one event after it, PRN's or PRA's (`10_state.md` R39). -/
theorem Effect.withOut {g : State → State} (hg : Effect i s g) (u : State) :
    ∃ new, OneEventOf (i.mnemonic = .prn) (i.mnemonic = .pra) new ∧
      ∀ o, g { u with out := o } = { g u with out := o ++ new } := by
  cases hg with
  | badRegister | divideByZero => exact ⟨[], oneEventOf_nil _ _, fun o => by rw [List.append_nil]; rfl⟩
  | completes hb =>
    cases hb with
    | @prn _ v hi => exact ⟨[⟨.int, v⟩], by simp [OneEventOf, hi, Instr.mnemonic], fun _ => rfl⟩
    | @pra _ v hi => exact ⟨[⟨.char, v⟩], by simp [OneEventOf, hi, Instr.mnemonic], fun _ => rfl⟩
    | skip | setReg | setFl | memWrite | halt | push | pop | ret =>
      exact ⟨[], oneEventOf_nil _ _, fun o => by rw [List.append_nil]; rfl⟩

/-! ### Every instruction -/

/-- The effect of an instruction, in the state itself. -/
theorem exec_eq_effect (i : Instr) (s : State) : ∃ g, Effect i s g ∧ exec i s = .next (g s) := by
  obtain ⟨g, hg, h⟩ := exec_effect i s
  exact ⟨g, hg, h s.fl s.status s.out fun _ => rfl⟩

/-- Every instruction answers a next state. -/
theorem exec_total (i : Instr) (s : State) : ∃ t, exec i s = .next t :=
  let ⟨g, _, h⟩ := exec_eq_effect i s
  ⟨g s, h⟩

theorem exec_next_effect (h : exec i s = .next t) : ∃ g, Effect i s g ∧ t = g s := by
  obtain ⟨g, hg, he⟩ := exec_eq_effect i s
  exact ⟨g, hg, Host.Outcome.next.inj (h.symm.trans he)⟩

/-- An instruction raises a fatal error or completes. -/
theorem exec_next (h : exec i s = .next t) :
    (∃ e ir opA opB, e ≠ .noError ∧ t = raise e ir opA opB s) ∨
      ∃ body, Body i s body ∧ t = (body s).setPc (nextPc i s) := by
  obtain ⟨g, hg, rfl⟩ := exec_next_effect h
  cases hg with
  | badRegister | divideByZero => exact .inl ⟨_, _, _, _, by simp, rfl⟩
  | completes hb => exact .inr ⟨_, hb, rfl⟩

/-- Raising a fatal error, in the terms claims are stated in (`60_exceptions.md` R214). -/
theorem raised_raise (e : ErrCode) (ir opA opB : Byte) (s : State) : Raised e ir opA opB s (raise e ir opA opB s) :=
  ⟨rfl, rfl, rfl, rfl, rfl, rfl, rfl, fun _ _ => rfl, rfl, fun _ => rfl, rfl⟩

/-- A conditional jump changes the pc or raises a fatal error, and neither reaches registers, memory or output. -/
theorem conditionalJump_frame (hi : isConditionalJump i = true) (h : exec i s = .next t) :
    t.regs = s.regs ∧ t.mem = s.mem ∧ t.out = s.out := by
  have jump {m : Mnemonic} {taken : Bool} {opA : Byte} (h : jumpIf m taken opA s = .next t) :
      t.regs = s.regs ∧ t.mem = s.mem ∧ t.out = s.out := by
    rcases jumpIf_next h with ⟨_, rfl⟩ | ⟨a, _, rfl⟩
    · exact ⟨rfl, rfl, rfl⟩
    · cases taken <;> exact ⟨rfl, rfl, rfl⟩
  match i, hi, h with
  | .jeq _, _, h | .jne _, _, h | .jlt _, _, h | .jgt _, _, h => exact jump h

end Sys2Proof.Machine

/-! The step: what it can do, and that the bytes it decodes are the instruction's own. -/

namespace Sys2Proof

/-- The operand decoder of a mnemonic gives that mnemonic's instruction and takes its operand bytes off the
list (`30_encoding.md` R81). -/
theorem decodeOperands_sound {m : Mnemonic} {bytes rest : List Byte} {i : Instr}
    (h : decodeOperands m bytes = .ok (i, rest)) : i.mnemonic = m ∧ bytes = i.operandBytes ++ rest := by
  have zero {j : Instr} (hm : j.mnemonic = m) (hops : j.operandBytes = [])
      (h : noOperand j bytes = .ok (i, rest)) : i.mnemonic = m ∧ bytes = i.operandBytes ++ rest := by
    cases h
    exact ⟨hm, by simp [hops]⟩
  have one {f : Byte → Instr} (hm : ∀ a, (f a).mnemonic = m) (hops : ∀ a, (f a).operandBytes = [a])
      (h : oneOperand f bytes = .ok (i, rest)) : i.mnemonic = m ∧ bytes = i.operandBytes ++ rest := by
    match bytes, h with
    | a :: _, rfl => exact ⟨hm a, by simp [hops]⟩
  have two {f : Byte → Byte → Instr} (hm : ∀ a b, (f a b).mnemonic = m)
      (hops : ∀ a b, (f a b).operandBytes = [a, b])
      (h : twoOperands f bytes = .ok (i, rest)) : i.mnemonic = m ∧ bytes = i.operandBytes ++ rest := by
    match bytes, h with
    | a :: b :: _, rfl => exact ⟨hm a b, by simp [hops]⟩
  cases m with
  | nop | hlt | ret | iret => exact zero rfl rfl h
  | push | pop | prn | pra | call | int | jmp | jeq | jne | jgt | jlt | inc | dec | not =>
    exact one (fun _ => rfl) (fun _ => rfl) h
  | ldi | ld | st | add | sub | mul | div | mod | cmp | and | or | xor | shl | shr =>
    exact two (fun _ _ => rfl) (fun _ _ => rfl) h

/-- What the decoder reads is an encoding at the head of the bytes (`30_encoding.md` R80, R91). -/
theorem decode_sound {bytes rest : List Byte} {i : Instr} (h : decode bytes = .ok (i, rest)) :
    bytes = encode i ++ rest := by
  match bytes, h with
  | ir :: tail, h =>
    rw [decode] at h
    cases hm : lookupOpcode ir with
    | none => simp [hm] at h
    | some m =>
      obtain ⟨him, htail⟩ := decodeOperands_sound (by simpa [hm] using h)
      simp [encode, him, (lookupOpcode_eq_some_iff ir m).mp hm, htail]

/-- Two operand bytes are enough for every instruction. -/
theorem decodeOperands_total (m : Mnemonic) (a b : Byte) : ∃ p, decodeOperands m [a, b] = .ok p := by
  cases m <;> exact ⟨_, rfl⟩

/-- The defined opcode bytes are those of the map (`30_encoding.md` R86). -/
theorem mem_definedOpcodes_iff (ir : Byte) : ir ∈ Machine.definedOpcodes ↔ ∃ m, lookupOpcode ir = some m := by
  rw [show Machine.definedOpcodes = allMnemonics.map opcodeOf from rfl, List.mem_map]
  constructor
  · rintro ⟨m, _, rfl⟩
    exact ⟨m, lookupOpcode_opcodeOf m⟩
  · rintro ⟨m, hm⟩
    exact ⟨m, mem_allMnemonics m, ((lookupOpcode_eq_some_iff ir m).mp hm).symm⟩

/-- Three bytes fail to decode only at an undefined opcode byte (`30_encoding.md` R88). -/
theorem not_mem_definedOpcodes_of_decode_error {ir a b : Byte} {e : DecodeError}
    (h : decode [ir, a, b] = .error e) : ir ∉ Machine.definedOpcodes := by
  rw [mem_definedOpcodes_iff]
  rintro ⟨m, hm⟩
  obtain ⟨p, hp⟩ := decodeOperands_total m a b
  simp [decode, hm, hp] at h

namespace Machine

variable {i : Instr} {s t : State}

theorem step_of_halted (hs : s.status = .halted) : step s = .next s := by
  simp [step, hs]

theorem step_of_decode_ok {rest : List Byte} (hs : s.status = .running)
    (hd : decode s.fetchBytes = .ok (i, rest)) : step s = exec i s := by
  simp [step, hs, State.fetchDecode, hd]

theorem step_of_decode_error {e : DecodeError} (hs : s.status = .running)
    (hd : decode s.fetchBytes = .error e) : step s = .next (raiseUnknown s) := by
  simp [step, hs, State.fetchDecode, hd]

/-- The three cases of a step (`40_step_cycle.md` R123). -/
theorem step_cases (s : State) :
    s.status = .halted ∨ (s.status = .running ∧ ∃ i rest, decode s.fetchBytes = .ok (i, rest)) ∨
      (s.status = .running ∧ ∃ e, decode s.fetchBytes = .error e) := by
  cases s.status with
  | halted => exact .inl rfl
  | running =>
    cases decode s.fetchBytes with
    | ok p => exact .inr (.inl ⟨rfl, p.1, p.2, rfl⟩)
    | error e => exact .inr (.inr ⟨rfl, e, rfl⟩)

/-- Everything a step can do (`40_step_cycle.md` R123). -/
theorem step_next (h : step s = .next t) :
    (s.status = .halted ∧ t = s) ∨
      (s.status = .running ∧ ∃ i rest, decode s.fetchBytes = .ok (i, rest) ∧ exec i s = .next t) ∨
      (s.status = .running ∧ s.fetchIr ∉ definedOpcodes ∧ t = raiseUnknown s) := by
  rcases step_cases s with hs | ⟨hs, i, rest, hd⟩ | ⟨hs, e, hd⟩
  · exact .inl ⟨hs, Host.Outcome.next.inj (h.symm.trans (step_of_halted hs))⟩
  · exact .inr (.inl ⟨hs, i, rest, hd, (step_of_decode_ok hs hd).symm.trans h⟩)
  · exact .inr (.inr ⟨hs, not_mem_definedOpcodes_of_decode_error hd,
      Host.Outcome.next.inj (h.symm.trans (step_of_decode_error hs hd))⟩)

/-- The fetched opcode byte is the decoded instruction's. -/
theorem fetchIr_of_decode {rest : List Byte} (h : decode s.fetchBytes = .ok (i, rest)) :
    s.fetchIr = opcodeOf i.mnemonic := (List.cons.inj (decode_sound h)).1

/-- The bytes an error of the decoded instruction records are those fetched (log 15). -/
theorem latches_of_decode {rest : List Byte} (h : decode s.fetchBytes = .ok (i, rest)) :
    latchA i s = s.fetchA ∧ latchB i s = s.fetchB := by
  have hops : [s.fetchA, s.fetchB] = i.operandBytes ++ rest := (List.cons.inj (decode_sound h)).2
  unfold latchA latchB
  match i.operandBytes, hops with
  | [], _ => exact ⟨rfl, rfl⟩
  | [_], h => exact ⟨(List.cons.inj h).1.symm, rfl⟩
  | a :: b :: _, h =>
    obtain ⟨ha, hb⟩ := List.cons.inj h
    exact ⟨ha.symm, (List.cons.inj hb).1.symm⟩

end Machine

end Sys2Proof

/-! The canonical form of memory determines it. -/

namespace Sys2Proof.Machine

/-- The canonical form of a list with a first entry. -/
theorem Memory.wfFrom_cons_iff {lo a : Nat} {v : CellByte} {m : Memory} :
    Memory.wfFrom lo ((a, v) :: m) = true ↔
      lo ≤ a ∧ a < Config.memSize ∧ v ≠ Config.memReset ∧ Memory.wfFrom (a + 1) m = true := by
  simp only [Memory.wfFrom, Bool.and_eq_true, decide_eq_true_eq, and_assoc]

theorem Memory.read_cons_head (a : Nat) (v : CellByte) (m : Memory) : Memory.read ((a, v) :: m) a = v := by
  simp [Memory.read]

/-- A memory whose first entry is at `a` reads unlike one in canonical form that lists only higher addresses. -/
theorem Memory.not_lt_of_read_eq {a b : Nat} {v : CellByte} {m n : Memory} (hv : v ≠ Config.memReset)
    (hn : Memory.wfFrom b n = true) (h : Memory.read ((a, v) :: m) a = n.read a) : ¬a < b := fun hlt =>
  hv ((Memory.read_cons_head a v m).symm.trans (h.trans (Memory.read_below hn hlt)))

/-- Two memories in canonical form that read alike inside the address space are the same list. -/
theorem Memory.eq_of_read_eq {lo : Nat} {m n : Memory} (hm : Memory.wfFrom lo m = true)
    (hn : Memory.wfFrom lo n = true) (h : ∀ a < Config.memSize, m.read a = n.read a) : m = n := by
  induction m generalizing lo n with
  | nil =>
    match n, hn with
    | [], _ => rfl
    | (b, w) :: n, hn =>
      obtain ⟨-, hb, hw, -⟩ := Memory.wfFrom_cons_iff.mp hn
      exact absurd ((Memory.read_cons_head b w n).symm.trans (h b hb).symm) hw
  | cons c m ih =>
    obtain ⟨a, v⟩ := c
    obtain ⟨-, ha, hv, hmt⟩ := Memory.wfFrom_cons_iff.mp hm
    match n, hn with
    | [], _ => exact absurd ((Memory.read_cons_head a v m).symm.trans (h a ha)) hv
    | (b, w) :: n, hn =>
      obtain ⟨-, hb, hw, hnt⟩ := Memory.wfFrom_cons_iff.mp hn
      have hle : ¬a < b := Memory.not_lt_of_read_eq hv (Memory.wfFrom_cons_iff.mpr ⟨le_rfl, hb, hw, hnt⟩) (h a ha)
      have hge : ¬b < a :=
        Memory.not_lt_of_read_eq hw (Memory.wfFrom_cons_iff.mpr ⟨le_rfl, ha, hv, hmt⟩) (h b hb).symm
      obtain rfl : a = b := by omega
      have hvw : v = w := by simpa only [Memory.read_cons_head] using h a ha
      have htail : m = n := ih hmt hnt fun c hc => by
        rcases Nat.lt_or_ge a c with hlt | hle
        · simpa [Memory.read, show c ≠ a by omega] using h c hc
        · rw [Memory.read_below hmt (by omega), Memory.read_below hnt (by omega)]
      rw [hvw, htail]

end Sys2Proof.Machine

/-! The statements of `10_state.md`, settled. -/

namespace Sys2Proof.Machine

variable {i : Instr} {s t : State}

/-! ### The invariant -/

/-- With no error latched the cause is that the latches are zero, so it holds of every state that keeps them. -/
theorem errorCause_of_noError (herr : t.err = .noError) (hs : s.err = .noError) (hsame : SameErrors s t)
    (h : ErrorCause s) : ErrorCause t := by
  obtain ⟨-, hpc, hir, hA, hB⟩ := hsame
  simp only [ErrorCause, hs] at h
  simpa only [ErrorCause, herr, hpc, hir, hA, hB] using h

/-- An instruction that completes keeps the invariant: it latches no error. -/
theorem Inv.setPc_body {body : State → State} (hinv : Inv s) (hs : s.err = .noError) (hb : Body i s body)
    (p : PcWord) : Inv ((body s).setPc p) := by
  have hsame : SameErrors s ((body s).setPc p) := hb.errors s
  have herr : ((body s).setPc p).err = .noError := hsame.1.trans hs
  exact
    { mem_wf := hb.mem_wf hinv.mem_wf
      flags_legal := hb.fl_legal hinv.flags_legal
      error_halts := fun h => absurd herr h
      error_at_pc := fun h => absurd herr h
      error_cause := errorCause_of_noError herr hs hsame hinv.error_cause }

/-- A fatal error with a true cause keeps the invariant, when it records the fetched bytes. -/
theorem Inv.raise_fetched {e : ErrCode} (hinv : Inv s) (hcause : ErrorCause (raise e s.fetchIr s.fetchA s.fetchB s)) :
    Inv (raise e s.fetchIr s.fetchA s.fetchB s) where
  mem_wf := hinv.mem_wf
  flags_legal := hinv.flags_legal
  error_halts := fun _ => rfl
  error_at_pc := fun _ => ⟨rfl, rfl, rfl, rfl⟩
  error_cause := hcause

/-- The instruction at the pc keeps the invariant. -/
theorem Inv.exec_next {rest : List Byte} (hinv : Inv s) (hs : s.err = .noError)
    (hd : decode s.fetchBytes = .ok (i, rest)) (h : exec i s = .next t) : Inv t := by
  obtain ⟨g, hg, rfl⟩ := exec_next_effect h
  obtain ⟨hA, hB⟩ := latches_of_decode hd
  have hir := fetchIr_of_decode hd
  cases hg with
  | completes hb => exact hinv.setPc_body hs hb _
  | badRegister hbad =>
    rw [hA, hB, ← hir]
    exact hinv.raise_fetched ⟨i, rest, hd, hbad⟩
  | @divideByZero a b hm ha hb h0 =>
    rw [hA] at ha
    rw [hB] at hb
    rw [hA, hB, ← hir]
    refine hinv.raise_fetched ⟨?_, ?_, b, hb, h0⟩
    · show s.fetchIr = 0xA3 ∨ s.fetchIr = 0xA4
      rw [hir]
      exact hm.imp (fun h => by rw [h]; rfl) (fun h => by rw [h]; rfl)
    · show s.fetchA.toNat ≤ 7
      have hlt := a.isLt
      have hval := (reg?_eq_some_iff _ _).mp ha
      omega

/-- A running machine that meets the invariant has no error latched. -/
theorem Inv.noError_of_running (hinv : Inv s) (hr : s.status = .running) : s.err = .noError := by
  by_contra h
  exact absurd (hr.symm.trans (hinv.error_halts h)) (by simp)

/-- Settles O51: halted, the state stays; running, the instruction's effect is a body, which leaves the latches
alone, or an error raised for the bytes fetched. -/
theorem stepKeepsInvariant : Obligations.StepKeepsInvariant := by
  intro s t hinv h
  rcases step_next h with ⟨_, rfl⟩ | ⟨hr, i, rest, hd, hexec⟩ | ⟨_, hir, rfl⟩
  · exact hinv
  · exact hinv.exec_next (hinv.noError_of_running hr) hd hexec
  · exact hinv.raise_fetched hir

/-- Settles O50: the reset state meets the invariant, field by field. -/
theorem resetMeetsInvariant : Obligations.ResetMeetsInvariant :=
  ⟨{ mem_wf := State.reset_mem_wf
     flags_legal := .inl rfl
     error_halts := fun h => absurd rfl h
     error_at_pc := fun h => absurd rfl h
     error_cause := ⟨rfl, rfl, rfl, rfl⟩ }, rfl, rfl⟩

/-! ### Who writes and who reads `FL`, `STATUS` and `OUT` -/

theorem exec_fl (hi : ∀ a b, i ≠ .cmp a b) (h : exec i s = .next t) : t.fl = s.fl := by
  rcases exec_next h with ⟨_, _, _, _, _, rfl⟩ | ⟨_, hb, rfl⟩
  · rfl
  · exact hb.fl hi s

theorem step_fl (hir : s.fetchIr ≠ 0xA7) (h : step s = .next t) : t.fl = s.fl := by
  rcases step_next h with ⟨_, rfl⟩ | ⟨_, i, rest, hd, hexec⟩ | ⟨_, _, rfl⟩
  · rfl
  · refine exec_fl ?_ hexec
    rintro a b rfl
    exact hir (fetchIr_of_decode hd)
  · rfl

/-- An instruction that is no conditional jump overwrites another `FL` or carries it along. -/
theorem exec_setFl (hi : isConditionalJump i = false) (f : Byte) (h : exec i s = .next t) :
    exec i (s.setFl f) = .next t ∨ exec i (s.setFl f) = .next (t.setFl f) := by
  obtain ⟨g, hg, hexec⟩ := exec_effect i s
  obtain rfl : g s = t := Host.Outcome.next.inj ((hexec s.fl s.status s.out fun _ => rfl).symm.trans h)
  have hf : exec i (s.setFl f) = .next (g (s.setFl f)) :=
    hexec f s.status s.out fun hj => absurd (hi.symm.trans hj) (by simp)
  rcases hg.setFl s f with he | he
  · exact .inl (hf.trans (congrArg _ he))
  · exact .inr (hf.trans (congrArg _ he))

/-- Whatever `FL` holds, a conditional jump leaves registers, memory and output as they were. -/
theorem conditionalJump_setFl (hi : isConditionalJump i = true) (f : Byte) (h : exec i s = .next t) :
    ∃ u, exec i (s.setFl f) = .next u ∧ SameRegsBut [] t u ∧ SameMemory t u ∧ u.out = t.out := by
  obtain ⟨u, hu⟩ := exec_total i (s.setFl f)
  obtain ⟨hregs, hmem, hout⟩ := conditionalJump_frame hi h
  obtain ⟨hregs', hmem', hout'⟩ := conditionalJump_frame hi hu
  refine ⟨u, hu, fun r _ => State.reg_congr (hregs'.trans hregs.symm) r, fun a => ?_, hout'.trans hout.symm⟩
  rw [State.memRead, State.memRead, hmem', hmem]
  rfl

/-- Settles O37, from the body of each instruction: CMP's alone writes `FL`, and no effect but a conditional
jump's is computed from it. -/
theorem onlyCmpWritesFlags : Obligations.OnlyCmpWritesFlags :=
  ⟨fun _ _ _ h hi => exec_fl hi h, fun _ _ h hir => step_fl hir h, fun _ _ _ _ _ => rfl, fun _ _ _ => rfl,
    fun _ _ _ f h hi => exec_setFl hi f h, fun _ _ _ f h hi => conditionalJump_setFl hi f h⟩

/-- An instruction halts as HLT does, by a fatal error, or not at all. -/
theorem exec_status (h : exec i s = .next t) :
    (i = .hlt ∧ t.status = .halted) ∨ (∃ e ir opA opB, e ≠ .noError ∧ Raised e ir opA opB s t) ∨
      (i ≠ .hlt ∧ t.status = s.status) := by
  rcases exec_next h with ⟨e, ir, opA, opB, he, rfl⟩ | ⟨_, hb, rfl⟩
  · exact .inr (.inl ⟨e, ir, opA, opB, he, raised_raise ..⟩)
  · exact (hb.status s).imp_right .inr

theorem running_of_step_running (h : step s = .next t) (ht : t.status = .running) : s.status = .running := by
  rcases step_next h with ⟨_, rfl⟩ | ⟨hr, _⟩ | ⟨hr, _⟩
  · exact ht
  · exact hr
  · exact hr

/-- Every instruction overwrites another `STATUS` or carries it along. -/
theorem exec_withStatus (r : RunStatus) (h : exec i s = .next t) :
    exec i { s with status := r } = .next t ∨ exec i { s with status := r } = .next { t with status := r } := by
  obtain ⟨g, hg, hexec⟩ := exec_effect i s
  obtain rfl : g s = t := Host.Outcome.next.inj ((hexec s.fl s.status s.out fun _ => rfl).symm.trans h)
  have hr : exec i { s with status := r } = .next (g { s with status := r }) := hexec s.fl r s.out fun _ => rfl
  rcases hg.withStatus s r with he | he
  · exact .inl (hr.trans (congrArg _ he))
  · exact .inr (hr.trans (congrArg _ he))

/-- Settles O38, from the body of each instruction: HLT's alone writes `STATUS`, and no effect is computed from
it. -/
theorem onlyHltAndErrorsHalt : Obligations.OnlyHltAndErrorsHalt :=
  ⟨rfl, fun _ _ _ h => exec_status h, fun _ _ h ht => running_of_step_running h ht, fun _ _ _ => rfl,
    fun _ _ _ r h => exec_withStatus r h⟩

/-- Settles O39: neither the fetch nor any effect is computed from the output, and each effect puts its own
event, if it has one, after whatever output it finds. -/
theorem outputGrowsAndIsNeverRead : Obligations.OutputGrowsAndIsNeverRead := by
  intro s
  suffices h : ∃ (t : State) (new : List OutEvent), OneEventOf (s.fetchIr = 0x47) (s.fetchIr = 0x48) new ∧
      ∀ o, step { s with out := o } = .next { t with out := o ++ new } by
    obtain ⟨t, new, ⟨hlen, hint, hchar⟩, hstep⟩ := h
    exact ⟨t, new, hlen, hint, hchar, hstep⟩
  rcases step_cases s with hs | ⟨hs, i, rest, hd⟩ | ⟨hs, e, hd⟩
  · exact ⟨s, [], oneEventOf_nil _ _, fun o => by
      rw [List.append_nil]; exact step_of_halted (s := { s with out := o }) hs⟩
  · obtain ⟨g, hg, hexec⟩ := exec_effect i s
    obtain ⟨new, ⟨hlen, hint, hchar⟩, hout⟩ := hg.withOut s
    have opcode {m : Mnemonic} (hm : i.mnemonic = m) : s.fetchIr = opcodeOf m := hm ▸ fetchIr_of_decode hd
    refine ⟨g s, new, ⟨hlen, opcode ∘ hint, opcode ∘ hchar⟩, fun o => ?_⟩
    calc step { s with out := o } = exec i { s with out := o } := step_of_decode_ok (s := { s with out := o }) hs hd
      _ = .next (g { s with out := o }) := hexec s.fl s.status o fun _ => rfl
      _ = .next { g s with out := o ++ new } := congrArg _ (hout o)
  · exact ⟨raiseUnknown s, [], oneEventOf_nil _ _, fun o => by
      rw [List.append_nil]; exact step_of_decode_error (s := { s with out := o }) hs hd⟩

/-! ### The pc and the registers -/

theorem encode_length (i : Instr) : (encode i).length = widthOf i.mnemonic := by cases i <;> rfl

/-- Settles O40: a fatal error leaves the pc, and a completed instruction ends with its `nextPc`. -/
theorem pcTransfersOrAdvances : Obligations.PcTransfersOrAdvances := by
  intro i s t h
  rcases exec_next h with ⟨e, ir, opA, opB, he, rfl⟩ | ⟨_, _, rfl⟩
  · exact .inl ⟨⟨e, ir, opA, opB, he, raised_raise ..⟩, rfl⟩
  · cases htr : transferTarget i s with
    | some target => exact .inr (.inl ⟨target, rfl, by simp [nextPc, htr]⟩)
    | none => exact .inr (.inr ⟨rfl, by simp [PcAdvances, nextPc, htr, encode_length, BitVec.toNat_add]⟩)

/-- Settles O41: a fatal error writes no register, and a body its destinations alone. -/
theorem registersChangeOnlyAtDestinations : Obligations.RegistersChangeOnlyAtDestinations := by
  intro i s t h r hr
  rcases exec_next h with ⟨_, _, _, _, _, rfl⟩ | ⟨_, hb, rfl⟩
  · rfl
  · exact hb.reg hr s

/-! ### Registers, memory and reset -/

/-- Settles O46: the form determines the list, and `Memory.write` keeps the form inside the address space. -/
theorem equalReadsEqualMemories : Obligations.EqualReadsEqualMemories := by
  refine ⟨fun m n hm hn h => Memory.eq_of_read_eq hm hn fun a ha => ?_, fun m a v hm => ?_⟩
  · exact h (BitVec.ofNatLT a ha)
  · exact Memory.write_wfFrom hm v (Nat.zero_le _) a.isLt

/-- Settles O44: a register read sees the last write of that register, and a write of the register file alone
leaves every other part of the state. -/
theorem registersHoldWhatIsWritten : Obligations.RegistersHoldWhatIsWritten := by
  intro s d v
  have hother : SameRegsBut [d] s (s.setReg d v) := fun r hr => by
    rw [State.reg_setReg, if_neg (by simpa using hr)]
  exact ⟨by simp, hother, ⟨rfl, ⟨rfl, rfl, rfl, rfl, rfl, rfl⟩, rfl⟩, fun _ => rfl, rfl⟩

/-- Settles O48: each value is the reset state's own, register by register. -/
theorem resetValuesOfTheSource : Obligations.ResetValuesOfTheSource :=
  ⟨by decide, rfl, rfl, rfl, rfl, fun _ => rfl⟩

end Sys2Proof.Machine

/-! What every instruction does to memory: the one byte `stored` names, or nothing (`20_memory.md` R54). -/

namespace Sys2Proof.Machine

variable {i : Instr} {s t : State}

/-- A memory read depends on the memory alone. -/
theorem State.memRead_congr (h : t.mem = s.mem) (a : Byte) : t.memRead a = s.memRead a :=
  congrArg (fun m => Memory.read m a.toNat) h

/-- The address of a byte is below 256, so the host's load there is the core's write. -/
theorem State.loadByteAt_toNat (s : State) (a v : Byte) : s.loadByteAt a.toNat v = s.memWrite a v := by
  have ha : a.toNat % Config.memSize = a.toNat := Nat.mod_eq_of_lt a.isLt
  rw [State.loadByteAt, State.memWrite, ha]

theorem sameMemoryBut_memWrite (s : State) (a v : Byte) : SameMemoryBut a s (s.memWrite a v) :=
  fun _ hc => State.memRead_memWrite_other s v hc

/-- ST, PUSH and CALL store only when their operand bytes name registers. -/
theorem stored_eq_none_of_not_wellFormed (h : i.wellFormed = false) : stored i s = none := by
  cases i with
  | push a | call a =>
    have ha : reg? a = none := by
      simpa [Instr.wellFormed, Instr.regOperands, isRegByte_eq_isSome_reg?] using h
    simp [stored, ha]
  | st a b =>
    have hab : (reg? a).isSome → reg? b = none := by
      simpa [Instr.wellFormed, Instr.regOperands, isRegByte_eq_isSome_reg?] using h
    cases ha : reg? a with
    | none => simp [stored, ha]
    | some ra => simp [stored, ha, hab (by simp [ha])]
  | _ => rfl

theorem stored_eq_none_of_divide (h : i.mnemonic = .div ∨ i.mnemonic = .mod) : stored i s = none := by
  cases i with
  | st | push | call => simp [Instr.mnemonic] at h
  | _ => rfl

/-- The memory of `t` is that of `s` with the instruction's stored byte written, if it stores one. -/
def MemoryAfter (i : Instr) (s t : State) : Prop :=
  (stored i s = none ∧ t.mem = s.mem) ∨ ∃ a v, stored i s = some (a, v) ∧ t.mem = (s.memWrite a v).mem

theorem Body.memoryAfter {body : State → State} (hb : Body i s body) : MemoryAfter i s (body s) := by
  cases hb with
  | skip _ hst | setReg _ hst | pop _ _ hst | ret _ hst => exact .inl ⟨hst, rfl⟩
  | setFl hi | prn hi | pra hi | halt hi => exact .inl ⟨by rw [hi]; rfl, rfl⟩
  | memWrite hst | push _ hst => exact .inr ⟨_, _, hst, rfl⟩

/-- An instruction that raises a fatal error stores nothing, and one that completes does as its body. -/
theorem exec_memoryAfter (h : exec i s = .next t) : MemoryAfter i s t := by
  obtain ⟨g, hg, rfl⟩ := exec_next_effect h
  cases hg with
  | badRegister hbad => exact .inl ⟨stored_eq_none_of_not_wellFormed hbad, rfl⟩
  | divideByZero hm => exact .inl ⟨stored_eq_none_of_divide hm, rfl⟩
  | completes hb => exact hb.memoryAfter

theorem exec_mem_of_stored {a v : Byte} (h : exec i s = .next t) (hst : stored i s = some (a, v)) :
    t.mem = (s.memWrite a v).mem := by
  rcases exec_memoryAfter h with ⟨hn, _⟩ | ⟨b, w, hs, hmem⟩
  · simp [hn] at hst
  · obtain ⟨rfl, rfl⟩ : b = a ∧ w = v := by simpa [hs] using hst
    exact hmem

theorem exec_mem_of_stored_none (h : exec i s = .next t) (hst : stored i s = none) : t.mem = s.mem := by
  rcases exec_memoryAfter h with ⟨_, hmem⟩ | ⟨_, _, hs, _⟩
  · exact hmem
  · simp [hst] at hs

/-- The byte an instruction stores is read back at its address. -/
theorem exec_memRead_stored {a v : Byte} (hwf : s.mem.wf = true) (h : exec i s = .next t)
    (hst : stored i s = some (a, v)) : t.memRead a = v :=
  (State.memRead_congr (exec_mem_of_stored h hst) a).trans (State.memRead_memWrite_same hwf a v)

/-- A running machine whose fetched opcode byte is HLT's runs HLT (`43_data_io_system.md` R196). -/
theorem step_of_fetchIr_hlt (hs : s.status = .running) (hir : s.fetchIr = 0x01) :
    step s = .next (s.halt.advance .hlt) := by
  have hd : decode s.fetchBytes = .ok (.hlt, [s.fetchA, s.fetchB]) := by rw [State.fetchBytes, hir]; rfl
  exact step_of_decode_ok hs hd

end Sys2Proof.Machine

/-! The statements of `20_memory.md`, settled. -/

namespace Sys2Proof.Machine

/-- Settles O42: every instruction leaves the memory it found, but for the byte it stores. -/
theorem memoryChangesOnlyWhereStored : Obligations.MemoryChangesOnlyWhereStored := by
  refine fun i s t h => ⟨fun addr v hst => ⟨fun c hc => ?_, fun hwf => exec_memRead_stored hwf h hst⟩,
    fun hst => State.memRead_congr (exec_mem_of_stored_none h hst)⟩
  calc t.memRead c = (s.memWrite addr v).memRead c := State.memRead_congr (exec_mem_of_stored h hst) c
    _ = s.memRead c := sameMemoryBut_memWrite s addr v c hc

/-- Settles O43: the three fetched bytes are memory reads of the state after the store, and an opcode byte so
fetched is the one the step decodes. -/
theorem storeSeenByNextFetch : Obligations.StoreSeenByNextFetch := by
  intro i s t addr v hwf h hst
  have hread : t.memRead addr = v := exec_memRead_stored hwf h hst
  have hir : t.pc = addr → t.fetchIr = v := by rintro rfl; exact hread
  refine ⟨hir, by rintro rfl; exact hread, by rintro rfl; exact hread, fun hpc hr hv => ?_⟩
  exact ⟨_, step_of_fetchIr_hlt hr ((hir hpc).trans hv), rfl, rfl, BitVec.toNat_add ..⟩

/-- Settles O45: the host's load at a byte's address is the core's write, so one read-after-write law serves
both. -/
theorem memoryReadsLastWrite : Obligations.MemoryReadsLastWrite := by
  refine ⟨fun _ => rfl, fun s a v hwf => ?_, fun s a v hwf => ?_⟩
  · exact ⟨State.memRead_memWrite_same hwf a v, sameMemoryBut_memWrite s a v, fun _ _ => rfl,
      ⟨rfl, ⟨rfl, rfl, rfl, rfl, rfl, rfl⟩, rfl⟩, rfl⟩
  · rw [State.loadByteAt_toNat]
    exact ⟨State.memRead_memWrite_same hwf a v, sameMemoryBut_memWrite s a v⟩

end Sys2Proof.Machine

/-! The decoder on an encoding and on an unknown opcode byte, and the fetched bytes by their number. -/

namespace Sys2Proof

/-- The operand decoder takes an instruction's own operand bytes off the list and leaves the rest
(`30_encoding.md` R81). The converse is `decodeOperands_sound`. -/
theorem decodeOperands_operandBytes (i : Instr) (rest : List Byte) :
    decodeOperands i.mnemonic (i.operandBytes ++ rest) = .ok (i, rest) := by
  cases i <;> rfl

/-- The converse of `decode_sound`: the opcode byte looks up to the instruction's own mnemonic, whose operand
decoder then reads the operand bytes. -/
theorem decode_encode (i : Instr) (rest : List Byte) : decode (encode i ++ rest) = .ok (i, rest) := by
  simp [decode, encode, decodeOperands_operandBytes]

/-- The operand decoder rejects only a list that is too short. -/
theorem decodeOperands_error {m : Mnemonic} {bytes : List Byte} {e : DecodeError}
    (h : decodeOperands m bytes = .error e) : e = .truncated := by
  have zero {j : Instr} (h : noOperand j bytes = .error e) : e = .truncated := nomatch h
  have one {f : Byte → Instr} (h : oneOperand f bytes = .error e) : e = .truncated := by
    match bytes, h with
    | [], rfl => rfl
  have two {f : Byte → Byte → Instr} (h : twoOperands f bytes = .error e) : e = .truncated := by
    match bytes, h with
    | [], rfl | [_], rfl => rfl
  cases m with
  | nop | hlt | ret | iret => exact zero h
  | push | pop | prn | pra | call | int | jmp | jeq | jne | jgt | jlt | inc | dec | not => exact one h
  | ldi | ld | st | add | sub | mul | div | mod | cmp | and | or | xor | shl | shr => exact two h

/-- The decoder rejects an opcode byte as unknown exactly when the map does not hold it (`30_encoding.md` R88). -/
theorem decode_eq_unknownInstruction_iff (ir : Byte) (rest : List Byte) :
    decode (ir :: rest) = .error (.unknownInstruction ir) ↔ ir ∉ Machine.definedOpcodes := by
  rw [mem_definedOpcodes_iff, decode]
  cases lookupOpcode ir with
  | none => simp
  | some m =>
    have hne : decodeOperands m rest ≠ .error (.unknownInstruction ir) := fun h => nomatch decodeOperands_error h
    simp [hne]

namespace Machine

/-- Fetched byte `k` is the one at `pc + k`, modulo 256 (`40_step_cycle.md` R118). -/
theorem State.fetchBytes_getElem? (s : State) {k : Nat} (hk : k < 3) :
    s.fetchBytes[k]? = some (s.memRead (s.pc + BitVec.ofNat 8 k)) := by
  match k, hk with
  | 0, _ => simp [State.fetchBytes, State.fetchIr]
  | 1, _ | 2, _ => rfl

/-- The fetch reads enough bytes for every instruction: bytes that stand at the pc head the fetched ones. -/
theorem State.prefix_fetchBytes {s : State} {bytes : List Byte} (hlen : bytes.length ≤ 3)
    (h : ∀ (k : Nat) (b : Byte), bytes[k]? = some b → s.memRead (s.pc + BitVec.ofNat 8 k) = b) :
    bytes <+: s.fetchBytes := by
  rw [List.prefix_iff_getElem?]
  intro k hk
  rw [s.fetchBytes_getElem? (by omega), h k bytes[k] (List.getElem?_eq_getElem hk)]

end Machine

end Sys2Proof

/-! The statements of `30_encoding.md`, settled. -/

namespace Sys2Proof.Machine

/-- Settles O2: what the decoder reads is an encoding, and every encoding is read back whatever follows it. -/
theorem decodeExactlyInvertsEncode : Obligations.DecodeExactlyInvertsEncode := fun _ i rest =>
  ⟨decode_sound, fun h => h ▸ decode_encode i rest⟩

/-- Settles O5: an encoding has at most the three bytes the fetch reads, so it heads them, and the decoder reads
it from there. -/
theorem stepRunsEncodedInstruction : Obligations.StepRunsEncodedInstruction := by
  intro i s hs hmem
  have hlen : (encode i).length ≤ 3 := encode_length i ▸ (Laws.widthOf_bounds i.mnemonic).2
  obtain ⟨rest, hrest⟩ := State.prefix_fetchBytes hlen hmem
  exact step_of_decode_ok hs (hrest ▸ decode_encode i rest)

/-- Settles O1: each word is the encoding of its instruction and what follows, and the last begins with a byte
outside the map. -/
theorem specWordsDecode : Obligations.SpecWordsDecode :=
  ⟨decode_encode .nop [0xFF, 0xFF], decode_encode .ret [], decode_encode (.int 0xFF) [],
    decode_encode (.push 7) [0x33], decode_encode (.jgt 2) [], decode_encode (.jlt 2) [],
    decode_encode (.ldi 3 0xFF) [], decode_encode (.ld 2 0) [], decode_encode (.st 0 1) [],
    decode_encode (.div 9 1) [], decode_encode (.shr 0 1) [],
    (decode_eq_unknownInstruction_iff 0x5A [0x00, 0x00]).mpr (by decide)⟩

/-- Settles O3: the decoder rejects a fetched byte outside the map, and the step then raises the error. -/
theorem undefinedOpcodesAreFatal : Obligations.UndefinedOpcodesAreFatal :=
  ⟨decode_eq_unknownInstruction_iff, fun _ hs hir =>
    ⟨_, step_of_decode_error hs ((decode_eq_unknownInstruction_iff _ _).mpr hir), raised_raise ..⟩⟩

/-- Settles O34, from operand decode with the policy at its value, fault. -/
theorem registerOperandIsWholeByte : Obligations.RegisterOperandIsWholeByte :=
  ⟨reg?_eq_some_iff, reg?_eq_none_iff, reg?_regByte⟩

end Sys2Proof.Machine

/-! The host's side of the step cycle: the run, the load of an image, and the fetch by address. -/

namespace Sys2Proof.Machine

variable {s t : State}

/-! ### The step and the run -/

/-- Every state has a next state: the fetch either decodes to an instruction, whose meaning answers one, or
raises UnknownInstruction (`40_step_cycle.md` R119). -/
theorem step_total (s : State) : ∃ t, step s = .next t := by
  rcases step_cases s with hs | ⟨hs, i, rest, hd⟩ | ⟨hs, e, hd⟩
  · exact ⟨s, step_of_halted hs⟩
  · obtain ⟨t, ht⟩ := exec_total i s
    exact ⟨t, (step_of_decode_ok hs hd).trans ht⟩
  · exact ⟨raiseUnknown s, step_of_decode_error hs hd⟩

theorem runFor_of_halted (n : Nat) (hs : s.status = .halted) : runFor n s = .next s := by
  cases n with
  | zero => rfl
  | succ n => simp [runFor, hs]

/-- A run takes its first step whether or not it tests for HALTED, where the step is the identity. -/
theorem runFor_succ (n : Nat) (h : step s = .next t) : runFor (n + 1) s = runFor n t := by
  cases hs : s.status with
  | running => simp [runFor, hs, h]
  | halted =>
    obtain rfl : s = t := Host.Outcome.next.inj ((step_of_halted hs).symm.trans h)
    rw [runFor_of_halted _ hs, runFor_of_halted _ hs]

/-- The host's iteration, of any machine, goes on from the state its first step answers. -/
theorem core_run_succ {M : Host.Core} {u v : M.State} (n : Nat) (h : M.step u = .next v) :
    M.run (n + 1) u = M.run n v := by
  rw [Host.Core.run, h]

/-- The bounded run is the host's iteration of the step (`40_step_cycle.md` R114). -/
theorem runFor_eq_core_run (n : Nat) (s : State) : runFor n s = Host.Core.run Sys2Proof.core n s := by
  induction n generalizing s with
  | zero => rfl
  | succ n ih =>
    obtain ⟨t, ht⟩ := step_total s
    rw [runFor_succ n ht, ih t]
    exact (core_run_succ (M := Sys2Proof.core) n ht).symm

/-- A run goes on from where a shorter one ended. -/
theorem runFor_add {n : Nat} (k : Nat) (h : runFor n s = .next t) : runFor (n + k) s = runFor k t := by
  induction n generalizing s with
  | zero =>
    obtain rfl : s = t := Host.Outcome.next.inj h
    rw [Nat.zero_add]
  | succ n ih =>
    obtain ⟨u, hu⟩ := step_total s
    rw [runFor_succ n hu] at h
    rw [Nat.succ_add, runFor_succ _ hu, ih h]

/-! ### The load of an image -/

/-- The host's load writes the one cell its address names modulo 256 (`40_step_cycle.md` R112). -/
theorem State.memRead_loadByteAt (hwf : s.mem.wf = true) (addr : Nat) (v a : Byte) :
    (s.loadByteAt addr v).memRead a = if a.toNat = addr % Config.memSize then v else s.memRead a := by
  rw [State.loadByteAt, State.memRead]
  split
  case isTrue ha => rw [← ha]; exact Memory.read_write_same hwf a.toNat v
  case isFalse ha => exact Memory.read_write_other s.mem v ha

theorem State.loadFrom_wf (hwf : s.mem.wf = true) (addr : Nat) (image : List Byte) :
    (s.loadFrom addr image).mem.wf = true := by
  induction image generalizing s addr with
  | nil => exact hwf
  | cons b image ih => exact ih (State.loadByteAt_wf hwf addr b) (addr + 1)

/-- A load writes memory alone. -/
theorem State.loadFrom_eq_withMem (s : State) (addr : Nat) (image : List Byte) :
    s.loadFrom addr image = { s with mem := (s.loadFrom addr image).mem } := by
  induction image generalizing s addr with
  | nil => rfl
  | cons b image ih => exact ih (s.loadByteAt addr b) (addr + 1)

/-- A load that stays inside the address space leaves the cells below its first address. -/
theorem State.memRead_loadFrom_below (hwf : s.mem.wf = true) {addr : Nat} {image : List Byte}
    (hfit : addr + image.length ≤ 256) {a : Byte} (ha : a.toNat < addr) :
    (s.loadFrom addr image).memRead a = s.memRead a := by
  induction image generalizing s addr with
  | nil => rfl
  | cons b image ih =>
    rw [List.length_cons] at hfit
    have hne : a.toNat ≠ addr % Config.memSize := by simp only [Config.memSize]; omega
    calc (s.loadFrom addr (b :: image)).memRead a
        = (s.loadByteAt addr b).memRead a := ih (State.loadByteAt_wf hwf addr b) (by omega) (by omega)
      _ = s.memRead a := by rw [State.memRead_loadByteAt hwf, if_neg hne]

/-- A load that stays inside the address space puts byte `k` of the image at address `addr + k` and leaves the
cells past the image. -/
theorem State.memRead_loadFrom (hwf : s.mem.wf = true) {addr : Nat} {image : List Byte}
    (hfit : addr + image.length ≤ 256) {a : Byte} (ha : addr ≤ a.toNat) :
    (s.loadFrom addr image).memRead a = (image[a.toNat - addr]?).getD (s.memRead a) := by
  induction image generalizing s addr with
  | nil => rfl
  | cons b image ih =>
    rw [List.length_cons] at hfit
    have hmod : addr % Config.memSize = addr := Nat.mod_eq_of_lt (by simp only [Config.memSize]; omega)
    have hread : (s.loadByteAt addr b).memRead a = if a.toNat = addr then b else s.memRead a := by
      rw [State.memRead_loadByteAt hwf, hmod]
    have hwf' := State.loadByteAt_wf hwf addr b
    rcases Nat.eq_or_lt_of_le ha with heq | hlt
    · rw [State.loadFrom, State.memRead_loadFrom_below hwf' (by omega) (by omega), hread, if_pos heq.symm]
      simp [heq]
    · rw [State.loadFrom, ih hwf' (by omega) hlt, hread, if_neg (by omega),
        show a.toNat - addr = a.toNat - (addr + 1) + 1 by omega, List.getElem?_cons_succ]

/-- With no error latched the invariant asks of memory its canonical form alone. -/
theorem Inv.withMem (hinv : Inv s) (hs : s.err = .noError) {m : Memory} (hm : m.wf = true) :
    Inv { s with mem := m } where
  mem_wf := hm
  flags_legal := hinv.flags_legal
  error_halts := hinv.error_halts
  error_at_pc h := absurd hs h
  error_cause := hinv.error_cause

/-! ### The fetch by address -/

/-- The fetch addresses are reduced modulo 256 (`40_step_cycle.md` R118; decision D2). -/
theorem State.memRead_pc_add (s : State) (k : Nat) :
    s.memRead (s.pc + BitVec.ofNat 8 k) = s.mem.read ((s.pc.toNat + k) % 256) := by
  simp [State.memRead, BitVec.toNat_add]

theorem State.fetchBytes_eq_read (s : State) :
    s.fetchBytes =
      [s.mem.read s.pc.toNat, s.mem.read ((s.pc.toNat + 1) % 256), s.mem.read ((s.pc.toNat + 2) % 256)] := by
  rw [← s.memRead_pc_add 1, ← s.memRead_pc_add 2]
  rfl

/-- Register `r` stands at place `r` of the observation. -/
theorem State.observe_regs_getElem? (s : State) (r : RegIdx) : s.observe.regs[r.val]? = some (s.reg r) := by
  simp [State.observe]

end Sys2Proof.Machine

/-! The statements of `40_step_cycle.md`, settled. -/

namespace Sys2Proof.Machine

/-- Settles O7: every instruction answers a next state, and so does the dispatch where there is none. -/
theorem stepAlwaysAnswersNext : Obligations.StepAlwaysAnswersNext := step_total

/-- Settles O47: by induction over the image a load touches memory alone, and each cell once, as the image fits
into the address space. -/
theorem bootPlacesImage : Obligations.BootPlacesImage := by
  refine ⟨fun s addr v => ?_, fun image hlen => ?_⟩
  · rw [State.loadByteAt, State.loadByteAt, show 256 = Config.memSize from rfl, Nat.mod_mod]
  · have hframe : bootState image = { State.reset with mem := (bootState image).mem } :=
      State.loadFrom_eq_withMem State.reset 0 image
    obtain ⟨hinv, herr, -⟩ := resetMeetsInvariant
    refine ⟨fun a => ?_, hframe, ?_⟩
    · exact State.memRead_loadFrom State.reset_mem_wf (by omega) (Nat.zero_le _)
    · rw [hframe]
      exact hinv.withMem herr (State.loadFrom_wf State.reset_mem_wf 0 image)

/-- Settles O49: both runs take the same steps, and a run goes on from a halted state by doing nothing. -/
theorem runIsIteratedStep : Obligations.RunIsIteratedStep :=
  ⟨runFor_eq_core_run, fun _ k _ _ h ht => (runFor_add k h).trans (runFor_of_halted k ht)⟩

/-- Settles O4, from the two cases of a running machine's step. -/
theorem stepRunsDecodedInstruction : Obligations.StepRunsDecodedInstruction := fun _ hs =>
  ⟨fun _ _ hd => step_of_decode_ok hs hd, fun _ hd => ⟨_, step_of_decode_error hs hd, raised_raise ..⟩⟩

/-- Settles O6, the step's first case. -/
theorem haltedStepChangesNothing : Obligations.HaltedStepChangesNothing := fun _ => step_of_halted

/-- Settles O8: the observation is field by field the state's, and the fetch is three memory reads. -/
theorem observationShowsNextBytes : Obligations.ObservationShowsNextBytes := fun s =>
  ⟨s.fetchBytes_eq_read, rfl, rfl, s.observe_regs_getElem?, rfl, rfl, rfl, rfl, rfl, rfl, rfl, rfl⟩

end Sys2Proof.Machine

/-! The two register forms and the two ways an instruction completes or raises, in the terms the statements use:
what an instruction's operand checks and its meaning give, stated once for every instruction of a shape. -/

namespace Sys2Proof.Machine

variable {i : Instr} {s : State}

/-! ### The operand checks -/

/-- An operand byte above 7 ends the instruction in BadRegister (`60_exceptions.md` R213). -/
theorem withReg_of_gt {m : Mnemonic} {opA opB : Byte} {k : RegIdx → Result} (h : 7 < opA.toNat) :
    withReg m opA opB s k = .next (raise .badRegister (opcodeOf m) opA opB s) :=
  withReg_none ((reg?_eq_none_iff opA).mpr h)

/-- Either operand byte above 7 ends the instruction in the same BadRegister (`60_exceptions.md` R213). -/
theorem withRegs_of_gt {m : Mnemonic} {opA opB : Byte} {k : RegIdx → RegIdx → Result}
    (h : 7 < opA.toNat ∨ 7 < opB.toNat) :
    withRegs m opA opB s k = .next (raise .badRegister (opcodeOf m) opA opB s) := by
  cases ha : reg? opA with
  | none => exact withReg_none ha
  | some a =>
    have hA : ¬7 < opA.toNat := by rw [← reg?_eq_none_iff, ha]; simp
    have hb : reg? opB = none := (reg?_eq_none_iff opB).mpr (h.resolve_left hA)
    simp [withRegs, withReg, ha, hb, badRegister]

/-- An instruction that begins with the check of operand A has format F1R (`30_encoding.md` R81, R84). -/
theorem oneRegisterForm (m : Mnemonic) {c : Byte → Instr} {k : Byte → State → RegIdx → Result}
    (hexec : ∀ opA s, exec (c opA) s = withReg m opA s.fetchB s (k opA s))
    (henc : ∀ opA, encode (c opA) = [opcodeOf m, opA] := by intro; rfl) : OneRegisterForm c (opcodeOf m) :=
  ⟨henc, fun opA s h => ⟨_, (hexec opA s).trans (withReg_of_gt h), raised_raise ..⟩⟩

/-- An instruction that begins with the check of both operands has format F2RR (`30_encoding.md` R81, R84). -/
theorem twoRegisterForm (m : Mnemonic) {c : Byte → Byte → Instr}
    {k : Byte → Byte → State → RegIdx → RegIdx → Result}
    (hexec : ∀ opA opB s, exec (c opA opB) s = withRegs m opA opB s (k opA opB s))
    (henc : ∀ opA opB, encode (c opA opB) = [opcodeOf m, opA, opB] := by intros; rfl) :
    TwoRegisterForm c (opcodeOf m) :=
  ⟨henc, fun opA opB s h => ⟨_, (hexec opA opB s).trans (withRegs_of_gt h), raised_raise ..⟩⟩

/-! ### Completion -/

/-- The advance of the pc as a number (`40_step_cycle.md` R120). -/
theorem pcAdvances_advance {u : State} (hpc : u.pc = s.pc) (m : Mnemonic) :
    PcAdvances (widthOf m) s (u.advance m) := by
  simp [PcAdvances, hpc, BitVec.toNat_add]

/-- An instruction that writes one register and advances the pc does only that. -/
theorem writesRegister_of_exec {m : Mnemonic} {d : RegIdx} {v : Byte} {n : Nat}
    (h : exec i s = .next ((s.setReg d v).advance m)) (hv : v.toNat = n) :
    WritesRegister i s d n (widthOf m) := by
  obtain ⟨hread, hregs, hcontrol, hmem, -⟩ := registersHoldWhatIsWritten s d v
  exact ⟨_, h, (congrArg BitVec.toNat hread).trans hv, pcAdvances_advance rfl m, hregs, hcontrol, hmem⟩

/-! ### The shapes of the ALU instructions -/

variable {a b : RegIdx} {n : Nat}

/-- A two-operand ALU instruction writes the value of its function to operand A's register (`41_alu.md` R140). -/
theorem writesRegister_of_aluTwo (m : Mnemonic) (f : Byte → Byte → Byte)
    (h : exec i s = aluTwo m f (regByte a) (regByte b) s)
    (hf : (f (s.reg a) (s.reg b)).toNat = n) : WritesRegister i s a n (widthOf m) :=
  writesRegister_of_exec (h.trans (withRegs_regByte ..)) hf

/-- A one-operand ALU instruction writes the value of its function to the same register (`41_alu.md` R140). -/
theorem writesRegister_of_aluOne (m : Mnemonic) (f : Byte → Byte) (h : exec i s = aluOne m f (regByte a) s)
    (hf : (f (s.reg a)).toNat = n) : WritesRegister i s a n (widthOf m) :=
  writesRegister_of_exec (h.trans (withReg_regByte ..)) hf

/-- DIV and MOD complete for a non-zero divisor (`41_alu.md` R144, R145). -/
theorem writesRegister_of_aluDivide (m : Mnemonic) (f : Byte → Byte → Byte)
    (h : exec i s = aluDivide m f (regByte a) (regByte b) s) (h0 : s.reg b ≠ 0)
    (hf : (f (s.reg a) (s.reg b)).toNat = n) : WritesRegister i s a n (widthOf m) :=
  writesRegister_of_exec (h.trans ((withRegs_regByte ..).trans (if_neg h0))) hf

/-- DIV and MOD raise DivideByZero for a zero divisor (`60_exceptions.md` R211). -/
theorem raisesError_of_aluDivide (m : Mnemonic) (f : Byte → Byte → Byte)
    (h : exec i s = aluDivide m f (regByte a) (regByte b) s) (h0 : s.reg b = 0) :
    RaisesError i s .divideByZero (opcodeOf m) (regByte a) (regByte b) :=
  ⟨_, h.trans ((withRegs_regByte ..).trans (if_pos h0)), raised_raise ..⟩

/-! ### Results as numbers -/

/-- The difference of two bytes as a number (`41_alu.md` R142). -/
theorem toNat_sub_mod (x y : Byte) : (x - y).toNat = (x.toNat + 256 - y.toNat) % 256 := by
  have hy : y.toNat < 256 := y.isLt
  rw [BitVec.toNat_sub, show 2 ^ 8 - y.toNat + x.toNat = x.toNat + 256 - y.toNat by omega]

/-- A left shift as a number (`41_alu.md` R152). -/
theorem toNat_shiftLeft_mul (x : Byte) (k : Nat) : (x <<< k).toNat = x.toNat * 2 ^ k % 256 := by
  rw [BitVec.toNat_shiftLeft, Nat.shiftLeft_eq]

/-- A logical right shift as a number (`41_alu.md` R153). -/
theorem toNat_ushiftRight_div (x : Byte) (k : Nat) : (x >>> k).toNat = x.toNat / 2 ^ k := by
  rw [BitVec.toNat_ushiftRight, Nat.shiftRight_eq_div_pow]

/-- The byte CMP writes as a number (`41_alu.md` R154). -/
theorem toNat_cmpFlags (x y : Byte) :
    (cmpFlags x y).toNat = if x = y then 1 else if x.toNat < y.toNat then 2 else 4 := by
  rw [cmpFlags_eq, apply_ite BitVec.toNat, apply_ite BitVec.toNat]
  rfl

/-- Each flag CMP writes is one of the three unsigned orders of its operands (`10_state.md` R29). -/
theorem cmpFlags_testBit (x y : Byte) :
    ((cmpFlags x y).toNat.testBit 0 = true ↔ x = y) ∧
    ((cmpFlags x y).toNat.testBit 1 = true ↔ x.toNat < y.toNat) ∧
    ((cmpFlags x y).toNat.testBit 2 = true ↔ y.toNat < x.toNat) := by
  rw [toNat_cmpFlags]
  by_cases heq : x = y
  · simp [heq, Nat.testBit]
  · have hne : x.toNat ≠ y.toNat := fun h => heq (BitVec.eq_of_toNat_eq h)
    by_cases hlt : x.toNat < y.toNat
    · simp [heq, hlt, hlt.le, Nat.testBit]
    · simp [heq, hlt, show y.toNat < x.toNat by omega, Nat.testBit]

end Sys2Proof.Machine

/-! The statements of `41_alu.md`, settled. -/

namespace Sys2Proof.Machine

/-- Settles O9: each is the two-operand shape, and the byte operation is the number's modulo 256. -/
theorem addSubMulWrap : Obligations.AddSubMulWrap := by
  refine ⟨twoRegisterForm .add fun _ _ _ => rfl, twoRegisterForm .sub fun _ _ _ => rfl,
    twoRegisterForm .mul fun _ _ _ => rfl, fun a b s => ⟨?_, ?_, ?_⟩⟩
  · exact writesRegister_of_aluTwo .add (fun u v => u + v) rfl (BitVec.toNat_add ..)
  · exact writesRegister_of_aluTwo .sub (fun u v => u - v) rfl (toNat_sub_mod ..)
  · exact writesRegister_of_aluTwo .mul (fun u v => u * v) rfl (BitVec.toNat_mul ..)

/-- Settles O10: the divisor's value decides, after the operand checks. -/
theorem divModAndZeroDivisor : Obligations.DivModAndZeroDivisor := by
  refine ⟨twoRegisterForm .div fun _ _ _ => rfl, twoRegisterForm .mod fun _ _ _ => rfl,
    fun a b s => ⟨fun h0 => ⟨?_, ?_⟩, fun h0 => ⟨?_, ?_⟩⟩⟩
  · exact writesRegister_of_aluDivide .div (fun u v => u / v) rfl h0 BitVec.toNat_udiv
  · exact writesRegister_of_aluDivide .mod (fun u v => u % v) rfl h0 BitVec.toNat_umod
  · exact raisesError_of_aluDivide .div (fun u v => u / v) rfl h0
  · exact raisesError_of_aluDivide .mod (fun u v => u % v) rfl h0

/-- Settles O11: each is the one-operand shape; adding 255 is subtracting 1, and the complement is `255 - x[a]`. -/
theorem incDecNotResults : Obligations.IncDecNotResults := by
  refine ⟨oneRegisterForm .inc fun _ _ => rfl, oneRegisterForm .dec fun _ _ => rfl,
    oneRegisterForm .not fun _ _ => rfl, fun a s => ⟨?_, ?_, ?_⟩⟩
  · exact writesRegister_of_aluOne .inc (fun u => u + 1) rfl (BitVec.toNat_add ..)
  · exact writesRegister_of_aluOne .dec (fun u => u - 1) rfl (toNat_sub_one _)
  · exact writesRegister_of_aluOne .not (fun u => ~~~u) rfl BitVec.toNat_not

/-- Settles O12: each writes the byte of the bitwise operation, and a bit of it is the operation of the bits. -/
theorem andOrXorBitwise : Obligations.AndOrXorBitwise := by
  refine ⟨twoRegisterForm .and fun _ _ _ => rfl, twoRegisterForm .or fun _ _ _ => rfl,
    twoRegisterForm .xor fun _ _ _ => rfl, fun a b s => ⟨(s.reg a &&& s.reg b).toNat, (s.reg a ||| s.reg b).toNat,
      (s.reg a ^^^ s.reg b).toNat, ?_, ?_, ?_, fun k => ?bits⟩⟩
  · exact writesRegister_of_aluTwo .and (fun u v => u &&& v) rfl rfl
  · exact writesRegister_of_aluTwo .or (fun u v => u ||| v) rfl rfl
  · exact writesRegister_of_aluTwo .xor (fun u v => u ^^^ v) rfl rfl
  case bits => simp

/-- Settles O13: a shift is a product or a quotient by a power of 2, and a count of the byte's width or more
shifts every bit out. -/
theorem shiftsByWholeCount : Obligations.ShiftsByWholeCount := by
  refine ⟨twoRegisterForm .shl fun _ _ _ => rfl, twoRegisterForm .shr fun _ _ _ => rfl,
    fun a b s => ⟨?_, ?_, fun h8 => ⟨?_, ?_⟩⟩⟩
  · exact writesRegister_of_aluTwo .shl (fun u v => u <<< v.toNat) rfl (toNat_shiftLeft_mul ..)
  · exact writesRegister_of_aluTwo .shr (fun u v => u >>> v.toNat) rfl (toNat_ushiftRight_div ..)
  · exact writesRegister_of_aluTwo .shl (fun u v => u <<< v.toNat) rfl
      (congrArg BitVec.toNat (BitVec.shiftLeft_eq_zero h8))
  · exact writesRegister_of_aluTwo .shr (fun u v => u >>> v.toNat) rfl
      (congrArg BitVec.toNat (BitVec.ushiftRight_eq_zero h8))

/-- Settles O14: CMP writes the one byte `cmpFlags` gives, whose three bits are the flags. -/
theorem cmpSetsOneFlag : Obligations.CmpSetsOneFlag := by
  refine ⟨twoRegisterForm .cmp fun _ _ _ => rfl, fun a b s => ?_⟩
  obtain ⟨hE, hL, hG⟩ := cmpFlags_testBit (s.reg a) (s.reg b)
  exact ⟨_, withRegs_regByte .., toNat_cmpFlags .., hE, hL, hG, pcAdvances_advance rfl .cmp, fun _ _ => rfl,
    fun _ => rfl, ⟨rfl, rfl, rfl, rfl, rfl, rfl⟩, rfl⟩

end Sys2Proof.Machine

/-! The jumps and the stack in the terms the statements use: the two ways a jump completes, the frame of a push,
and which cells a row of pushes can reach (`42_control_stack.md`). -/

namespace Sys2Proof.Machine

variable {i : Instr} {s t u : State}

/-- A state with other registers, pc and memory has the same flags, run state, latches and output. -/
theorem sameControl_with (s : State) (regs : RegFile) (pc : PcWord) (mem : Memory) :
    SameControl s { s with regs := regs, pc := pc, mem := mem } :=
  ⟨rfl, ⟨rfl, rfl, rfl, rfl, rfl, rfl⟩, rfl⟩

/-! ### Jumps -/

/-- An instruction that only sets the pc changes nothing else. -/
theorem setsOnlyPc_of_exec {p : PcWord} (h : exec i s = .next (s.setPc p)) : SetsOnlyPc i s p :=
  ⟨_, h, rfl, fun _ _ => rfl, sameControl_with .., fun _ => rfl⟩

/-- An instruction that only advances the pc changes nothing else. -/
theorem onlyAdvances_of_exec (m : Mnemonic) (h : exec i s = .next (s.advance m)) : OnlyAdvances i s (widthOf m) :=
  ⟨_, h, pcAdvances_advance rfl m, fun _ _ => rfl, sameControl_with .., fun _ => rfl⟩

/-- A jump whose operand names a register (`42_control_stack.md` R171 to R175). -/
theorem jumpIf_regByte (m : Mnemonic) (taken : Bool) (a : RegIdx) (s : State) :
    jumpIf m taken (regByte a) s = .next (if taken then s.setPc (s.reg a) else s.advance m) :=
  withReg_regByte ..

/-- A jump of width 2 whose Boolean is the condition's truth jumps when the condition holds. -/
theorem jumpsWhen_of_jumpIf (m : Mnemonic) {c : Byte → Instr} {cond : State → Prop} (taken : State → Bool)
    (hexec : ∀ opA s, exec (c opA) s = jumpIf m (taken s) opA s) (hcond : ∀ s, taken s = true ↔ cond s)
    (hwidth : widthOf m = 2) : JumpsWhen c cond := by
  intro a s
  have h := (hexec (regByte a) s).trans (jumpIf_regByte m (taken s) a s)
  refine ⟨fun hc => ?_, fun hc => ?_⟩
  · rw [if_pos ((hcond s).mpr hc)] at h
    exact setsOnlyPc_of_exec h
  · rw [if_neg (mt (hcond s).mp hc)] at h
    exact hwidth ▸ onlyAdvances_of_exec m h

/-! ### Frames in sequence -/

theorem SameRegsBut.trans {ds : List RegIdx} (h : SameRegsBut ds s t) (h' : SameRegsBut ds t u) :
    SameRegsBut ds s u := fun r hr => (h' r hr).trans (h r hr)

theorem SameControl.trans (h : SameControl s t) (h' : SameControl t u) : SameControl s u := by
  simp_all [SameControl, SameRunState, SameErrors]

theorem PcAdvances.trans {m n : Nat} (h : PcAdvances m s t) (h' : PcAdvances n t u) : PcAdvances (m + n) s u := by
  unfold PcAdvances at *
  omega

theorem execAll_cons {is : List Instr} (h : exec i s = .next t) : execAll (i :: is) s = execAll is t := by
  rw [execAll, h]

/-- A list in two parts runs the second from where the first ends. -/
theorem execAll_append {is : List Instr} (js : List Instr) (h : execAll is s = .next t) :
    execAll (is ++ js) s = execAll js t := by
  induction is generalizing s with
  | nil => cases h; rfl
  | cons i is ih =>
    obtain ⟨v, hv⟩ := exec_total i s
    rw [execAll_cons hv] at h
    exact (execAll_cons hv).trans (ih h)

/-! ### Push and pop -/

/-- A push writes no register but the stack pointer. -/
theorem sameRegsBut_pushWith (s : State) (v : State → Byte) : SameRegsBut [7] s (s.pushWith v) := by
  intro r hr
  rw [State.reg_pushWith, if_neg (by simpa using hr)]

/-- A push stores one byte, at the decremented stack pointer. -/
theorem sameMemoryBut_pushWith (s : State) (v : State → Byte) : SameMemoryBut (s.reg 7 - 1) s (s.pushWith v) :=
  fun _ hc => State.memRead_pushWith_other s v hc

/-- The state after PUSH of a register (`42_control_stack.md` R178). -/
def State.pushReg (s : State) (r : RegIdx) : State := (s.pushWith fun t => t.reg r).advance .push

/-- The state after POP to a register (`42_control_stack.md` R179). -/
def State.popReg (s : State) (r : RegIdx) : State := ((s.setReg r (s.memRead s.sp)).incSp).advance .pop

theorem exec_push (r : RegIdx) (s : State) : exec (.push (regByte r)) s = .next (s.pushReg r) := withReg_regByte ..

theorem exec_pop (r : RegIdx) (s : State) : exec (.pop (regByte r)) s = .next (s.popReg r) := withReg_regByte ..

@[simp] theorem State.reg_pushReg (s : State) (r q : RegIdx) :
    (s.pushReg r).reg q = if q = 7 then s.reg 7 - 1 else s.reg q :=
  State.reg_pushWith s (fun t => t.reg r) q

theorem State.pushReg_wf (hwf : s.mem.wf = true) (r : RegIdx) : (s.pushReg r).mem.wf = true :=
  State.pushWith_wf hwf fun t => t.reg r

/-- What PUSH stores: the register, or for register 7 the address of the store (D13). -/
theorem State.memRead_pushReg_top (hwf : s.mem.wf = true) (r : RegIdx) :
    (s.pushReg r).memRead (s.reg 7 - 1) = if r = 7 then s.reg 7 - 1 else s.reg r :=
  (State.memRead_pushWith_same hwf fun t => t.reg r).trans (State.reg_decSp ..)

theorem sameRegsBut_pushReg (s : State) (r : RegIdx) : SameRegsBut [7] s (s.pushReg r) :=
  sameRegsBut_pushWith s fun t => t.reg r

theorem sameMemoryBut_pushReg (s : State) (r : RegIdx) : SameMemoryBut (s.reg 7 - 1) s (s.pushReg r) :=
  sameMemoryBut_pushWith s fun t => t.reg r

theorem sameControl_pushReg (s : State) (r : RegIdx) : SameControl s (s.pushReg r) := sameControl_with ..

/-- POP increments after the load, also when the destination is register 7 (D13). -/
@[simp] theorem State.reg_popReg (s : State) (r q : RegIdx) :
    (s.popReg r).reg q = if q = 7 then (if r = 7 then s.memRead (s.reg 7) else s.reg 7) + 1
      else if q = r then s.memRead (s.reg 7) else s.reg q := by
  simp [State.popReg, State.sp_eq_reg, eq_comm]

theorem sameControl_popReg (s : State) (r : RegIdx) : SameControl s (s.popReg r) := sameControl_with ..

/-- POP of the register pushed, with the registers and the pushed cell as PUSH left them, restores every
register (`42_control_stack.md` R179). -/
theorem sameRegsBut_popReg {r : RegIdx} (hwf : s.mem.wf = true) (hregs : SameRegsBut [] (s.pushReg r) t)
    (hcell : t.memRead (s.reg 7 - 1) = (s.pushReg r).memRead (s.reg 7 - 1)) : SameRegsBut [] s (t.popReg r) := by
  intro q hq
  have hsp : t.reg 7 = s.reg 7 - 1 := hregs 7 (by simp)
  rw [State.reg_popReg, hsp, hcell, State.memRead_pushReg_top hwf, hregs q hq, State.reg_pushReg]
  by_cases hq7 : q = 7
  · by_cases hr7 : r = 7 <;> simp [hq7, hr7]
  · by_cases hqr : q = r
    · subst hqr
      simp [hq7]
    · simp [hq7, hqr]

/-! ### Rows of pushes -/

/-- How far a cell lies below the next push: push `k` (from 0) of a row stores at depth `k`, so that the cell the
stack pointer addresses is the deepest. -/
def State.stackDepth (s : State) (c : Byte) : Nat := (s.reg 7 - 1 - c).toNat

/-- Every cell that `n` pushes do not reach is unchanged. -/
def SameMemoryBeyond (n : Nat) (s t : State) : Prop := ∀ c, n ≤ s.stackDepth c → t.memRead c = s.memRead c

/-- A row of at most 255 pushes does not reach the cell the stack pointer addresses. -/
theorem SameMemoryBeyond.top {n : Nat} (h : SameMemoryBeyond n s t) (hn : n ≤ 255) :
    t.memRead (s.reg 7) = s.memRead (s.reg 7) := by
  refine h _ ?_
  rw [State.stackDepth]
  bv_omega

/-- A push before a row of `n` pushes reaches one cell more. -/
theorem SameMemoryBeyond.of_pushReg {n : Nat} {r : RegIdx} (h : SameMemoryBeyond n (s.pushReg r) t) :
    SameMemoryBeyond (n + 1) s t := by
  intro c hc
  have hne : c ≠ s.reg 7 - 1 := by rintro rfl; simp [State.stackDepth] at hc
  have hdepth : n ≤ (s.pushReg r).stackDepth c := by
    rw [State.stackDepth] at hc ⊢
    rw [State.reg_pushReg, if_pos rfl]
    bv_omega
  exact (h c hdepth).trans (sameMemoryBut_pushReg s r c hne)

/-- The effect of a row of pushes: each stores once, at the next cell down. -/
theorem execAll_pushes (rs : List RegIdx) (hwf : s.mem.wf = true) (hlen : rs.length ≤ 256) :
    ∃ t, execAll (rs.map fun r => .push (regByte r)) s = .next t ∧
      t.reg 7 = s.reg 7 - BitVec.ofNat 8 rs.length ∧ SameRegsBut [7] s t ∧ SameMemoryBeyond rs.length s t ∧
      ∀ (k : Nat) (r : RegIdx), rs[k]? = some r →
        t.memRead (s.reg 7 - BitVec.ofNat 8 (k + 1)) =
          (if r = 7 then s.reg 7 - BitVec.ofNat 8 (k + 1) else s.reg r) := by
  induction rs generalizing s with
  | nil => exact ⟨s, rfl, by simp, fun _ _ => rfl, fun _ _ => rfl, by simp⟩
  | cons r rs ih =>
    rw [List.length_cons] at hlen ⊢
    have hsub (n : Nat) : (s.pushReg r).reg 7 - BitVec.ofNat 8 n = s.reg 7 - BitVec.ofNat 8 (n + 1) := by
      rw [State.reg_pushReg, if_pos rfl, sub_sub, add_comm n 1, BitVec.ofNat_add]
      rfl
    obtain ⟨t, hexec, hsp, hregs, hbeyond, hcells⟩ := ih (State.pushReg_wf hwf r) (by omega)
    refine ⟨t, (execAll_cons (exec_push r s)).trans hexec, hsp.trans (hsub _),
      (sameRegsBut_pushReg s r).trans hregs, hbeyond.of_pushReg, fun k q hk => ?_⟩
    cases k with
    | zero =>
      obtain rfl : r = q := by simpa using hk
      exact (hbeyond.top (by omega)).trans (State.memRead_pushReg_top hwf r)
    | succ k =>
      rw [← hsub, hcells k q hk, State.reg_pushReg s r q]
      by_cases hq : q = 7 <;> simp only [hq, if_true, if_false]

/-- A row of pushes and the pops that undo it, innermost first: register `r` is pushed before and popped after
the shorter row, which neither moves the stack pointer nor reaches the cell of `r`. -/
theorem execAll_pushes_pops (rs : List RegIdx) (hwf : s.mem.wf = true) (hlen : rs.length ≤ 256) :
    ∃ t, execAll ((rs.map fun r => .push (regByte r)) ++ (rs.reverse.map fun r => .pop (regByte r))) s = .next t ∧
      SameRegsBut [] s t ∧ PcAdvances (4 * rs.length) s t ∧ SameControl s t ∧ SameMemoryBeyond rs.length s t := by
  induction rs generalizing s with
  | nil =>
    exact ⟨s, rfl, fun _ _ => rfl, (Nat.mod_eq_of_lt s.pc.isLt).symm, sameControl_with .., fun _ _ => rfl⟩
  | cons r rs ih =>
    rw [List.length_cons] at hlen ⊢
    obtain ⟨t, hexec, hregs, hpc, hcontrol, hbeyond⟩ := ih (State.pushReg_wf hwf r) (by omega)
    have hpopped : SameRegsBut [] s (t.popReg r) := sameRegsBut_popReg hwf hregs (hbeyond.top (by omega))
    refine ⟨t.popReg r, ?_, hpopped, ?_, ?_, hbeyond.of_pushReg⟩
    · have hlast := execAll_append [.pop (regByte r)] hexec
      simpa [execAll, exec_push, exec_pop] using hlast
    · have hpush : PcAdvances 2 s (s.pushReg r) := pcAdvances_advance rfl .push
      have hpop : PcAdvances 2 t (t.popReg r) := pcAdvances_advance rfl .pop
      rw [show 4 * (rs.length + 1) = 2 + 4 * rs.length + 2 by omega]
      exact (hpush.trans hpc).trans hpop
    · exact ((sameControl_pushReg s r).trans hcontrol).trans (sameControl_popReg t r)

end Sys2Proof.Machine

/-! The statements of `42_control_stack.md`, settled. -/

namespace Sys2Proof.Machine

/-- Settles O15: JMP is the jump that is always taken. -/
theorem jmpGoesToRegister : Obligations.JmpGoesToRegister :=
  ⟨oneRegisterForm .jmp fun _ _ => rfl, fun a s => setsOnlyPc_of_exec (jumpIf_regByte .jmp true a s)⟩

/-- Settles O16: flag E is bit 0 of FL, and JNE's Boolean is its negation. -/
theorem jeqJneTestEqual : Obligations.JeqJneTestEqual := by
  refine ⟨oneRegisterForm .jeq fun _ _ => rfl, oneRegisterForm .jne fun _ _ => rfl, ?_, ?_⟩
  · exact jumpsWhen_of_jumpIf .jeq State.flagE (fun _ _ => rfl) (fun _ => Iff.rfl) rfl
  · exact jumpsWhen_of_jumpIf .jne (fun s => !s.flagE) (fun _ _ => rfl) (fun _ => (Bool.not_eq_true' _).to_iff) rfl

/-- Settles O17: flag L is bit 1 of FL and flag G is bit 2. -/
theorem jltJgtTestOrder : Obligations.JltJgtTestOrder := by
  refine ⟨oneRegisterForm .jlt fun _ _ => rfl, oneRegisterForm .jgt fun _ _ => rfl, ?_, ?_⟩
  · exact jumpsWhen_of_jumpIf .jlt State.flagL (fun _ _ => rfl) (fun _ => Iff.rfl) rfl
  · exact jumpsWhen_of_jumpIf .jgt State.flagG (fun _ _ => rfl) (fun _ => Iff.rfl) rfl

/-- Settles O18: CALL is a push of `pc + 2`, and its target is read after it. -/
theorem callPushesReturnAddress : Obligations.CallPushesReturnAddress := by
  refine ⟨oneRegisterForm .call fun _ _ => rfl, fun a s => ⟨_, withReg_regByte .., toNat_sub_one _, fun hwf => ?_,
    State.reg_pushWith .., sameRegsBut_pushWith s fun _ => s.pc + 2,
    sameMemoryBut_pushWith s fun _ => s.pc + 2, sameControl_with ..⟩⟩
  exact (congrArg BitVec.toNat (State.memRead_pushWith_same hwf fun _ => s.pc + 2)).trans (BitVec.toNat_add ..)

/-- Settles O19: the pop of the pc, whose one register write is the stack pointer's increment. -/
theorem retPopsReturnAddress : Obligations.RetPopsReturnAddress := by
  refine ⟨rfl, fun s => ⟨_, rfl, rfl, BitVec.toNat_add .., fun r hr => ?_, fun _ => rfl, sameControl_with ..⟩⟩
  exact (State.reg_incSp s r).trans (if_neg (by simpa using hr))

/-- Settles O20, from the rules of the push. -/
theorem pushStoresBelow : Obligations.PushStoresBelow :=
  ⟨oneRegisterForm .push fun _ _ => rfl, fun a s => ⟨_, exec_push a s, toNat_sub_one _,
    fun hwf => State.memRead_pushReg_top hwf a, pcAdvances_advance rfl .push, sameRegsBut_pushReg s a,
    sameMemoryBut_pushReg s a, sameControl_pushReg s a⟩⟩

/-- Settles O21: what register 7 holds after the load decides what the increment gives. -/
theorem popLoadsThenIncrements : Obligations.PopLoadsThenIncrements := by
  refine ⟨oneRegisterForm .pop fun _ _ => rfl, fun a s => ⟨_, exec_pop a s, fun h7 => ?_, ?_,
    pcAdvances_advance rfl .pop, fun r hr => ?_, fun _ => rfl, sameControl_popReg s a⟩⟩
  · simp [h7]
  · rintro rfl
    simp
  · obtain ⟨hra, hr7⟩ : r ≠ a ∧ r ≠ 7 := by simpa using hr
    simp [hra, hr7]

/-- Settles O22, from the effect of a row of pushes. -/
theorem pushesDescendFromStackPointer : Obligations.PushesDescendFromStackPointer := by
  refine ⟨rfl, fun rs s hwf hlen => ?_⟩
  obtain ⟨t, hexec, hsp, hregs, -, hcells⟩ := execAll_pushes rs hwf hlen
  exact ⟨t, hexec, hsp, hregs, hcells⟩

/-- Settles O23, from the effect of a row of pushes and the pops that undo it. -/
theorem popsUndoPushes : Obligations.PopsUndoPushes := by
  intro rs s hwf hlen
  obtain ⟨t, hexec, hregs, hpc, hcontrol, -⟩ := execAll_pushes_pops rs hwf hlen
  exact ⟨t, hexec, hregs, hpc, hcontrol⟩

/-- Settles O24: RET reads the cell CALL wrote and increments what CALL decremented. -/
theorem retReturnsPastCall : Obligations.RetReturnsPastCall := by
  intro a s t u hwf hcall hsp hcell
  obtain ⟨-, hcalls⟩ := callPushesReturnAddress
  obtain ⟨t', ht', hdec, hstore, -⟩ := hcalls a s
  obtain rfl : t' = t := by simpa [hcall, eq_comm] using ht'
  obtain ⟨-, hrets⟩ := retPopsReturnAddress
  obtain ⟨v, hret, hpc, hinc, -⟩ := hrets u
  refine ⟨v, hret, ?_, BitVec.eq_of_toNat_eq ?_⟩
  · rw [PcAdvances, hpc, hcell, hstore hwf]
  · have hlt : (s.reg 7).toNat < 256 := (s.reg 7).isLt
    rw [hinc, hsp, hdec]
    omega

end Sys2Proof.Machine

/-! The output instructions in the terms the statements use: what appending an event leaves unchanged, and how a
number below 1000 is written in decimal (`43_data_io_system.md` section 2). -/

namespace Sys2Proof.Machine

variable {i : Instr} {s : State}

/-- An instruction that emits one event and advances the pc changes nothing else (`40_step_cycle.md` R115). -/
theorem appendsEvent_of_exec {k : OutKind} {v : Byte} (m : Mnemonic)
    (h : exec i s = .next ((s.emit k v).advance m)) :
    ∃ t, exec i s = .next t ∧ t.out = s.out ++ [{ kind := k, value := v }] ∧ PcAdvances (widthOf m) s t ∧
      SameRegsBut [] s t ∧ SameMemory s t ∧ t.fl = s.fl ∧ SameRunState s t :=
  ⟨_, h, rfl, pcAdvances_advance rfl m, fun _ _ => rfl, fun _ => rfl, rfl, rfl, rfl, rfl, rfl, rfl, rfl⟩

/-! ### Decimal digits -/

variable {n : Nat}

theorem decimalDigits_ne_nil (n : Nat) : decimalDigits n ≠ [] := by
  fun_cases decimalDigits n <;> nofun

/-- Below 1000 the three digits suffice, so that none of them is 10 or more. -/
theorem lt_ten_of_mem_decimalDigits (hn : n < 1000) : ∀ d ∈ decimalDigits n, d < 10 := by
  intro d
  fun_cases decimalDigits n <;> simp only [List.mem_cons, List.not_mem_nil, or_false] <;> omega

/-- The digits, read from the most significant, give the number back. -/
theorem foldl_decimalDigits (n : Nat) : (decimalDigits n).foldl (fun m d => 10 * m + d) 0 = n := by
  fun_cases decimalDigits n <;> simp only [List.foldl] <;> omega

/-- Only 0 begins with the digit 0: the number is at least 10 where there are two digits, and 100 where there
are three. -/
theorem eq_zero_of_decimalDigits_head? : (decimalDigits n).head? = some 0 → n = 0 := by
  fun_cases decimalDigits n <;> simp only [List.head?_cons, Option.some.injEq] <;> omega

end Sys2Proof.Machine

/-! The statements of `43_data_io_system.md`, settled. -/

namespace Sys2Proof.Machine

/-- Settles O25: only operand A is checked, and operand B is the byte written. -/
theorem ldiLoadsImmediate : Obligations.LdiLoadsImmediate :=
  ⟨fun _ _ => rfl, fun _ _ _ h => ⟨_, withReg_of_gt h, raised_raise ..⟩,
    fun _ _ _ => writesRegister_of_exec (m := .ldi) (withReg_regByte ..) rfl⟩

/-- Settles O26: the byte is read before the register is written, so the two may be the same register. -/
theorem ldLoadsByte : Obligations.LdLoadsByte :=
  ⟨twoRegisterForm .ld fun _ _ _ => rfl, fun _ _ _ => writesRegister_of_exec (m := .ld) (withRegs_regByte ..) rfl⟩

/-- Settles O27, from the rules of the memory write. -/
theorem stStoresByte : Obligations.StStoresByte :=
  ⟨twoRegisterForm .st fun _ _ _ => rfl, fun a b s => ⟨_, withRegs_regByte ..,
    fun hwf => State.memRead_memWrite_same hwf (s.reg a) (s.reg b), pcAdvances_advance rfl .st, fun _ _ => rfl,
    sameMemoryBut_memWrite s (s.reg a) (s.reg b), sameControl_with ..⟩⟩

/-- Settles O28: both emit the register's value, each with its own kind. -/
theorem prnPraAppendEvent : Obligations.PrnPraAppendEvent :=
  ⟨oneRegisterForm .prn fun _ _ => rfl, oneRegisterForm .pra fun _ _ => rfl, fun _ _ =>
    ⟨appendsEvent_of_exec .prn (withReg_regByte ..), appendsEvent_of_exec .pra (withReg_regByte ..)⟩⟩

/-- Settles O29: a byte is below 1000, where `decimalDigits` writes the number in decimal. -/
theorem renderedDecimalAndCharacter : Obligations.RenderedDecimalAndCharacter := by
  refine fun v => ⟨⟨decimalDigits v.toNat, rfl, decimalDigits_ne_nil _, lt_ten_of_mem_decimalDigits ?_,
    foldl_decimalDigits _, fun h0 => ?_⟩, rfl⟩
  · exact lt_trans v.isLt (by decide)
  · rw [eq_zero_of_decimalDigits_head? h0]
    rfl

/-- Settles O30: NOP is the advance alone. -/
theorem nopOnlyAdvances : Obligations.NopOnlyAdvances := ⟨rfl, fun _ => onlyAdvances_of_exec .nop rfl⟩

/-- Settles O31: HLT is the advance and the run state HALTED, in which a step does nothing. -/
theorem hltHaltsPastItself : Obligations.HltHaltsPastItself :=
  ⟨rfl, fun _ => ⟨_, rfl, rfl, pcAdvances_advance rfl .hlt, ⟨rfl, rfl, rfl, rfl, rfl⟩, fun _ _ => rfl,
    fun _ => rfl, rfl, rfl, step_of_halted rfl⟩⟩

/-- Settles O32: under the policy of D5 both stubs are the advance alone, whatever the operand byte. -/
theorem intIretOnlyAdvance : Obligations.IntIretOnlyAdvance :=
  ⟨fun _ => rfl, rfl, fun _ => ⟨fun _ => onlyAdvances_of_exec .int rfl, onlyAdvances_of_exec .iret rfl⟩⟩

end Sys2Proof.Machine

/-! What ends an instruction in a fatal error, and which: each error's condition on the instruction and the
registers, in both directions, and the same conditions on the fetched bytes. -/

namespace Sys2Proof.Machine

variable {i : Instr} {s t : State}

/-! ### The conditions -/

/-- An ill-formed instruction has a register operand byte above 7. -/
theorem wellFormed_eq_false_iff : i.wellFormed = false ↔ ∃ b ∈ i.regOperands, 7 < b.toNat := by
  simp only [Instr.wellFormed, List.all_eq_false, isRegByte_eq_isSome_reg?, Option.not_isSome_iff_eq_none,
    reg?_eq_none_iff]

/-- DIV or MOD with both operands registers and a zero divisor (`60_exceptions.md` R211). -/
def DividesByZero (i : Instr) (s : State) : Prop :=
  (i.mnemonic = .div ∨ i.mnemonic = .mod) ∧
    ∃ a b, reg? (latchA i s) = some a ∧ reg? (latchB i s) = some b ∧ s.reg b = 0

/-- An ill-formed instruction raises BadRegister, its register checks coming first (`60_exceptions.md` R213, R216). -/
theorem exec_of_not_wellFormed (hi : i.wellFormed = false) (s : State) :
    exec i s = .next (raise .badRegister (opcodeOf i.mnemonic) (latchA i s) (latchB i s) s) := by
  have h := wellFormed_eq_false_iff.mp hi
  cases i with
  | nop | hlt | ret | iret | int => simp [Instr.regOperands] at h
  | push | pop | prn | pra | call | jmp | jeq | jne | jgt | jlt | inc | dec | not | ldi =>
    exact withReg_of_gt (by simpa [Instr.regOperands] using h)
  | ld | st | add | sub | mul | div | mod | cmp | and | or | xor | shl | shr =>
    exact withRegs_of_gt (by simpa [Instr.regOperands] using h)

theorem aluDivide_of_zero {m : Mnemonic} {f : Byte → Byte → Byte} {opA opB : Byte} {a b : RegIdx}
    (ha : reg? opA = some a) (hb : reg? opB = some b) (h0 : s.reg b = 0) :
    aluDivide m f opA opB s = .next (raise .divideByZero (opcodeOf m) opA opB s) := by
  simp [aluDivide, withRegs, withReg, ha, hb, h0]

/-- A zero divisor raises DivideByZero (`60_exceptions.md` R211). -/
theorem exec_of_dividesByZero (h : DividesByZero i s) :
    exec i s = .next (raise .divideByZero (opcodeOf i.mnemonic) (latchA i s) (latchB i s) s) := by
  obtain ⟨hm, a, b, ha, hb, h0⟩ := h
  cases i with
  | div | mod => exact aluDivide_of_zero ha hb h0
  | _ => simp [Instr.mnemonic] at hm

/-! ### The error of an instruction -/

/-- From a state without an error, an instruction ends in one of its two errors, whose condition then holds, or in
none. -/
theorem exec_err (hs : s.err = .noError) (h : exec i s = .next t) :
    (t.err = .badRegister ∧ i.wellFormed = false) ∨ (t.err = .divideByZero ∧ DividesByZero i s) ∨
      t.err = .noError := by
  obtain ⟨g, hg, rfl⟩ := exec_next_effect h
  cases hg with
  | badRegister hi => exact .inl ⟨rfl, hi⟩
  | divideByZero hm ha hb h0 => exact .inr (.inl ⟨rfl, hm, _, _, ha, hb, h0⟩)
  | completes hb => exact .inr (.inr ((hb.errors s).1.trans hs))

theorem exec_err_ne_unknownInstruction (hs : s.err = .noError) (h : exec i s = .next t) :
    t.err ≠ .unknownInstruction := by
  rcases exec_err hs h with ⟨he, _⟩ | ⟨he, _⟩ | he <;> simp [he]

theorem exec_err_eq_badRegister_iff (hs : s.err = .noError) (h : exec i s = .next t) :
    t.err = .badRegister ↔ i.wellFormed = false := by
  refine ⟨fun he => by simpa [he] using exec_err hs h, fun hi => ?_⟩
  obtain rfl := Host.Outcome.next.inj (h.symm.trans (exec_of_not_wellFormed hi s))
  rfl

theorem exec_err_eq_divideByZero_iff (hs : s.err = .noError) (h : exec i s = .next t) :
    t.err = .divideByZero ↔ DividesByZero i s := by
  refine ⟨fun he => by simpa [he] using exec_err hs h, fun hz => ?_⟩
  obtain rfl := Host.Outcome.next.inj (h.symm.trans (exec_of_dividesByZero hz))
  rfl

/-! ### The fetched bytes -/

/-- A fetched byte that decodes is one of the map. -/
theorem mem_definedOpcodes_of_decode {rest : List Byte} (hd : decode s.fetchBytes = .ok (i, rest)) :
    s.fetchIr ∈ definedOpcodes := by
  rw [mem_definedOpcodes_iff, fetchIr_of_decode hd]
  exact ⟨i.mnemonic, lookupOpcode_opcodeOf _⟩

/-- No two mnemonics share an opcode byte, so the fetched one tells which is decoded (`30_encoding.md` R86). -/
theorem fetchIr_eq_opcodeOf_iff {rest : List Byte} (hd : decode s.fetchBytes = .ok (i, rest)) (m : Mnemonic) :
    s.fetchIr = opcodeOf m ↔ i.mnemonic = m := by
  rw [fetchIr_of_decode hd, ← lookupOpcode_eq_some_iff, lookupOpcode_opcodeOf, Option.some.injEq]

/-- The zero divisor of the decoded instruction in terms of the fetched bytes. -/
theorem dividesByZero_iff_of_decode {rest : List Byte} (hd : decode s.fetchBytes = .ok (i, rest)) :
    DividesByZero i s ↔ (s.fetchIr = 0xA3 ∨ s.fetchIr = 0xA4) ∧ s.fetchA.toNat ≤ 7 ∧
      ∃ b : RegIdx, s.fetchB.toNat = b.val ∧ s.reg b = 0 := by
  have hm : (i.mnemonic = .div ∨ i.mnemonic = .mod) ↔ (s.fetchIr = 0xA3 ∨ s.fetchIr = 0xA4) :=
    or_congr (fetchIr_eq_opcodeOf_iff hd .div).symm (fetchIr_eq_opcodeOf_iff hd .mod).symm
  have hA : (∃ a, reg? s.fetchA = some a) ↔ s.fetchA.toNat ≤ 7 := by
    rw [← Option.ne_none_iff_exists', ne_eq, reg?_eq_none_iff, not_lt]
  obtain ⟨hlA, hlB⟩ := latches_of_decode hd
  simp only [DividesByZero, hm, hlA, hlB, ← hA, exists_and_left, exists_and_right, reg?_eq_some_iff]

/-! ### The step of a running machine -/

/-- A running machine's step raises an error for the bytes it fetched, or leaves the latches alone
(`60_exceptions.md` R214, R215). -/
theorem step_raises_or_sameErrors (hs : s.status = .running) (h : step s = .next t) :
    (∃ e, e ≠ .noError ∧ t = raise e s.fetchIr s.fetchA s.fetchB s) ∨ SameErrors s t := by
  rcases step_next h with ⟨hhalted, _⟩ | ⟨_, i, rest, hd, hexec⟩ | ⟨_, _, rfl⟩
  · simp [hs] at hhalted
  · obtain ⟨g, hg, rfl⟩ := exec_next_effect hexec
    obtain ⟨hA, hB⟩ := latches_of_decode hd
    rw [fetchIr_of_decode hd, ← hA, ← hB]
    cases hg with
    | badRegister | divideByZero => exact .inl ⟨_, by simp, rfl⟩
    | completes hb => exact .inr (hb.errors s)
  · exact .inl ⟨.unknownInstruction, by simp, rfl⟩

end Sys2Proof.Machine

/-! The statements of `60_exceptions.md`, settled. -/

namespace Sys2Proof.Machine

/-- Settles O35: the step raises an error for the fetched bytes, or keeps the latches and so has none. -/
theorem fatalErrorsArePrecise : Obligations.FatalErrorsArePrecise := by
  intro s t hs herr h
  rcases step_raises_or_sameErrors hs h with ⟨e, he, rfl⟩ | hsame
  · exact ⟨fun _ => raised_raise .., fun h0 => absurd h0 he⟩
  · exact ⟨fun hne => absurd (hsame.1.trans herr) hne, fun _ => hsame⟩

/-- Settles O36: where the fetched byte decodes, the instruction's own error conditions decide; where it does not,
neither of them can hold. -/
theorem fatalErrorCausesAndPriority : Obligations.FatalErrorCausesAndPriority := by
  intro s t hs herr h
  rcases step_next h with ⟨hhalted, _⟩ | ⟨_, i, rest, hd, hexec⟩ | ⟨_, hir, rfl⟩
  · simp [hs] at hhalted
  · have hir : s.fetchIr ∈ definedOpcodes := mem_definedOpcodes_of_decode hd
    refine ⟨iff_of_false (exec_err_ne_unknownInstruction herr hexec) (not_not_intro hir),
      (exec_err_eq_badRegister_iff herr hexec).trans ?_,
      (exec_err_eq_divideByZero_iff herr hexec).trans (dividesByZero_iff_of_decode hd)⟩
    simp [hd]
  · refine ⟨iff_of_true rfl hir, iff_of_false nofun ?_, iff_of_false nofun ?_⟩
    · rintro ⟨_, _, hd, _⟩
      exact hir (mem_definedOpcodes_of_decode hd)
    · rintro ⟨hdiv | hmod, _⟩
      · exact hir (hdiv ▸ by decide)
      · exact hir (hmod ▸ by decide)

/-- Settles O33: `raise` writes the run state and the latches alone. -/
theorem raisingErrorEffect : Obligations.RaisingErrorEffect := ⟨raised_raise, rfl, rfl, rfl, rfl⟩

end Sys2Proof.Machine
